-- ==== Sys2Proof/Word.lean ====
section
/-! DEFINITION. The word types of the block (R8, R10) and the primitive `wrap_N` (R9). -/

namespace Sys2Proof

/-- An 8-bit word: a stimulus (R60), a table entry (R66), the decoder state register (R22). -/
abbrev Byte := BitVec 8

/-- A PinSample `BA`: bit 1 is the level of channel B, bit 0 that of channel A (R13). -/
abbrev PinSample := BitVec 2

/-- The electrical level of one line; 0 on the button line is "pressed" (R62). -/
abbrev Level := BitVec 1

/-- `wrap_N(i)` (R9): the integer of `[-2^(n-1), 2^(n-1))` that is congruent to `i` modulo `2^n`. -/
def wrap (n : Nat) (i : Int) : Int := i.bmod (2 ^ n)

end Sys2Proof
end

