-- ==== Sys2Proof/Config.lean ====
section
/-! DEFINITION. The build parameters (R7) and the free values of the points the spec leaves open. -/

namespace Sys2Proof

/-- `MODE` (R7, R80): which of the two transition tables the build holds. -/
inductive Mode
  | full
  | half
deriving DecidableEq, Repr

/-- `SIMUL_ORDER` (R7, R50): how an ENC_EDGE and a BTN_EDGE of one delivery window are ordered. -/
inductive SimulOrder
  | encFirst
  | btnFirst
  /-- Either order, chosen afresh each time, with no law. -/
  | any
deriving DecidableEq, Repr

/-- The parameters of one built block, fixed for its lifetime (R7). -/
structure Build where
  mode : Mode
  /-- `POS_WIDTH`: a positive integer (R7, R26, I8). -/
  posWidth : PNat
  /-- `OBSERVABILITY`: `true` is `ON`. -/
  observability : Bool
  simulOrder : SimulOrder
deriving DecidableEq, Repr

namespace Config

/-- The build of `State.reset`: `POS_WIDTH` is 32, this spec's value, `OBSERVABILITY` is `OFF` by default and the model
takes `SIMUL_ORDER = ANY` (R7).
`MODE` has no default in the spec: FULL is a DESIGN CHOICE, unsafe (log entry 1). -/
def defaultBuild : Build := { mode := .full, posWidth := 32, observability := false, simulOrder := .any }

/-- Free value: under `ANY`, whether the encoder edge comes first in the window met at this tick (R50, log entry 8). -/
opaque encFirst : Nat → Bool

/-- Free value: how many of a window's concurrent readers come before both edges (R52, log entry 9). -/
opaque readsBefore : Nat → Nat

/-- Free value: how many of the remaining readers come between the two edges (R52, log entry 9). -/
opaque readsBetween : Nat → Nat

/-- Free value: what `diag_step_dir` shows while `diag_step_valid = 0` (I7, log entry 11). -/
opaque freeDiagDir : Nat → BitVec 2

/-- Free value: what `diag_step_pos`, a bus of `w` bits, shows while `diag_step_valid = 0` (I7, log entry 11). -/
opaque freeDiagPos : (w : Nat) → Nat → BitVec w

end Config
end Sys2Proof
end

