-- ==== Sys2Proof/Syntax.lean ====
section
/-! DEFINITION. The three operations that have a stimulus word (R60), the fields of a word, the reasons a word
is RESERVED (R68), and the assembler's pseudo-instructions (R72). -/

namespace Sys2Proof

/-- One constructor per row of the opcode table. RESET has no word (R60): it is a delivery (`Machine.Delivery`). -/
inductive Instr
  /-- ENC_EDGE with the PinSample `{B, A}` (R61, R89). -/
  | enc (p : PinSample)
  /-- BTN_EDGE with the level of the button line (R62, R124). -/
  | btn (l : Level)
  /-- READ_POS (R63, R130). -/
  | read
deriving DecidableEq, Repr

/-- The three fields of a stimulus word (R60): bits [7:6], [5:2] and [1:0]. -/
structure StimFields where
  op  : BitVec 2
  rsv : BitVec 4
  opd : BitVec 2
deriving DecidableEq, Repr

/-- Why a word is RESERVED (R60, R68). -/
inductive Reserved
  /-- `op = 00`. -/
  | opZero
  /-- The field `rsv` is not zero. -/
  | rsvNonzero
  /-- Bit 1 of BTN_EDGE's operand is not zero. -/
  | btnOperand
  /-- READ_POS's operand is not zero. -/
  | readOperand
deriving DecidableEq, Repr

/-- The pseudo-instructions of R72. -/
inductive Pseudo
  | press
  | release
  | cw
  | ccw
  | rest
deriving DecidableEq, Repr

end Sys2Proof
end

