-- ==== Sys2Proof/WellFormed.lean ====
section
/-! DEFINITION. When the fields of a word are those of an operation (R60 to R63), and an instruction's own fields. -/

namespace Sys2Proof

/-- `op` is not the reserved value `00` (R60). -/
def StimFields.opInUse (f : StimFields) : Bool := f.op != 0b00

/-- The field `rsv` is `0000` (R60). -/
def StimFields.rsvZero (f : StimFields) : Bool := f.rsv == 0b0000

/-- BTN_EDGE leaves bit 1 of the operand 0 (R62). -/
def StimFields.btnOperandOk (f : StimFields) : Bool := f.op != 0b10 || !f.opd.getLsbD 1

/-- READ_POS has the operand `00` (R63). -/
def StimFields.readOperandOk (f : StimFields) : Bool := f.op != 0b11 || f.opd == 0b00

/-- The fields belong to one of the three operations (R60). -/
def StimFields.wellFormed (f : StimFields) : Bool :=
  f.opInUse && f.rsvZero && f.btnOperandOk && f.readOperandOk

/-- The fields of an instruction (R61 to R63). -/
def Instr.fields : Instr → StimFields
  | .enc p => { op := 0b01, rsv := 0, opd := p }
  | .btn l => { op := 0b10, rsv := 0, opd := l.zeroExtend 2 }
  | .read  => { op := 0b11, rsv := 0, opd := 0 }

/-- An instruction is well-formed when its fields are. The operand types admit exactly the operand values of R61
to R63, so every instruction is (`Laws.instr_wellFormed`). -/
def Instr.wellFormed (i : Instr) : Bool := i.fields.wellFormed

end Sys2Proof
end

