-- ==== Sys2Proof/Decode.lean ====
section
/-! DEFINITION. The stimulus decoder, total on all 256 words (R68), and the encoder (R61 to R63). -/

namespace Sys2Proof

/-- The fields of a word (R60). -/
def fieldsOf (w : Byte) : StimFields :=
  { op := w.extractLsb' 6 2, rsv := w.extractLsb' 2 4, opd := w.extractLsb' 0 2 }

/-- R68: exactly seven words are operations; every other word is RESERVED, and the answer says why. -/
def decode (w : Byte) : Except Reserved Instr :=
  let f := fieldsOf w
  if f.op = 0b00 then .error .opZero
  else if f.rsv ≠ 0 then .error .rsvNonzero
  else if f.op = 0b01 then .ok (.enc f.opd)
  else if f.op = 0b10 then
    if f.opd.extractLsb' 1 1 = 0 then .ok (.btn (f.opd.extractLsb' 0 1)) else .error .btnOperand
  else if f.opd = 0 then .ok .read
  else .error .readOperand

/-- The word of an instruction: `010000pp`, `1000000l`, `11000000` (R61 to R63). -/
def encode : Instr → Byte
  | .enc p => 0b010000#6 ++ p
  | .btn l => 0b1000000#7 ++ l
  | .read  => 0b11000000#8

/-- The instruction word of an opcode-table row given as a number: a stimulus is one byte, and the bits above
`nbits` are 0 (R60). -/
def tableWord (nbits w : Nat) : Byte := BitVec.ofNat 8 (w % 2 ^ nbits)

/-- The instruction the decoder reads from a word numbered as the opcode table numbers it. -/
def decodeTableWord (nbits w : Nat) : Option Instr :=
  if nbits ≤ 8 then
    match decode (tableWord nbits w) with
    | .ok i => some i
    | .error _ => none
  else none

end Sys2Proof
end

