-- ==== Sys2Proof/Machine/State.lean ====
section
/-! DEFINITION. The block's state as plain data (R20 to R35), what the outside world delivers to it, and the
reasons a step stops. -/

namespace Sys2Proof.Machine

/-- The block raises no exception and has no fault: the table of causes is empty (R150, R156). -/
inductive Fault
deriving DecidableEq, Repr

/-- Why a step is refused. Each refusal is safe: the model stops where the spec gives no behaviour. -/
inductive Refusal
  /-- Raised by no meaning: it is only for an arm of `exec` that has none, and there is no such arm. Safe. -/
  | notModelled (mnemonic : String)
  /-- Raised by the step on a RESERVED word, which "is not a step of the machine" (R69, I5). Safe. -/
  | reservedWord (w : Byte) (why : Reserved)
  /-- Raised by ENC_EDGE when `st` holds no code of the build's mode: no row of the table is its (R172, I3, D20).
  No run from RESET gets there (R22). Safe. -/
  | illegalStateCode (code : Byte)
  /-- Raised by ENC_EDGE when a table entry has the event field `11` (R67, I6). Neither table has one. Safe. -/
  | tableDefect (entry : Byte)
deriving DecidableEq, Repr

/-- The StepEvent an ENC_EDGE returns (R13, R28). -/
inductive StepEvent
  | none
  | cw
  | ccw
deriving DecidableEq, Repr

/-- The seven full-step states, in the order of their codes (R64). -/
inductive FullState
  | start
  | cwFinal
  | cwBegin
  | cwNext
  | ccwBegin
  | ccwFinal
  | ccwNext
deriving DecidableEq, Repr

/-- The six half-step states, in the order of their codes (R65). -/
inductive HalfState
  | start
  | ccwBegin
  | cwBegin
  | startM
  | cwBeginM
  | ccwBeginM
deriving DecidableEq, Repr

/-- One diagnostic record (R31); a step record holds the position after the step. -/
inductive DiagRecord
  | cw (p : Int)
  | ccw (p : Int)
  | reset
deriving DecidableEq, Repr

/-- What `diag_step_dir` and `diag_step_pos` hold while `diag_step_valid = 1` (R33). -/
structure DiagStep where
  dir : BitVec 2
  pos : Int
deriving DecidableEq, Repr

/-- What an operation returns to its caller (R28, R130). -/
inductive Returned
  | nothing
  | event (ev : StepEvent)
  | position (v : Int)
deriving DecidableEq, Repr

/-- The input ports of one clock cycle (R33). -/
structure PortIn where
  rst       : Bool
  encValid  : Bool
  encSample : PinSample
  btnValid  : Bool
  btnLevel  : Level
deriving DecidableEq, Repr

/-- An edge notification (R152). -/
inductive Notice
  | enc (p : PinSample)
  | btn (l : Level)
deriving DecidableEq, Repr

/-- What the outside world delivers (R6, R158); the first three at the transaction level, the last at the port level. -/
inductive Delivery
  /-- One stimulus word (R60). -/
  | word (w : Byte)
  /-- The operation RESET (R170). -/
  | reset
  /-- An ENC_EDGE and a BTN_EDGE of one delivery window, with so many READ_POS concurrent with them (R50, R52). -/
  | window (p : PinSample) (l : Level) (readers : Nat)
  /-- One cycle of the port level: a rising edge of `clk` with these inputs (R183). -/
  | cycle (c : PortIn)
deriving DecidableEq, Repr

/-- The machine. `st` and `pos` are the block's two registers (R20); `index` and `diag` are R30 and R31; `stepEvent`,
`diagStep` and `diagRstValid` are the output registers of the port level (R34); `ret` is what the last operation
returned; `pending` is the trace still to come and `build` the parameters (R21); `ticks` feeds the free values. -/
structure State where
  /-- The decoder state register (R22). -/
  st : Byte
  /-- The position counter, as the signed integer it is (R10, R13, R26). `POS_WIDTH` is a parameter of the build, so the
  range of the counter is an invariant of the machine and no part of its type (log entry 2). -/
  pos : Int
  /-- The index of the next stimulus in the trace (R30). -/
  index : Nat
  /-- The diagnostic records emitted, oldest first (R31). -/
  diag : List DiagRecord
  /-- The port register `step_event` (R33). -/
  stepEvent : BitVec 2
  /-- The port registers `diag_step_valid` (`some` is 1), `diag_step_dir` and `diag_step_pos` (R33). -/
  diagStep : Option DiagStep
  /-- The port register `diag_rst_valid` (R33). -/
  diagRstValid : Bool
  /-- What the last operation returned (the model's own field, log entry 6). -/
  ret : Returned
  /-- The deliveries still to come, in their delivered order (R48, R49). -/
  pending : List Delivery
  /-- The parameters of the build: no step writes them (R7, R80). -/
  build : Build
  /-- The counter the free values are applied to (the model's own field, log entry 7). -/
  ticks : Nat
deriving DecidableEq, Repr

/-- `POS_WIDTH` of the build (R7). -/
abbrev State.posWidth (s : State) : Nat := s.build.posWidth

/-- The block of build `b` right after RESET, with nothing delivered yet (R35). -/
def State.resetFor (b : Build) : State :=
  { st := 0x00, pos := 0, index := 0, diag := [], stepEvent := 0b00, diagStep := Option.none,
    diagRstValid := false, ret := .nothing, pending := [], build := b, ticks := 0 }

/-- The machine right after reset (R35), in the build of `Config.defaultBuild` (log entry 1). -/
def State.reset : State := State.resetFor Config.defaultBuild

end Sys2Proof.Machine
end

