-- ==== Sys2Proof/Machine/Operands.lean ====
section
/-! DEFINITION. The operands of the operations and the fields of a table entry. -/

namespace Sys2Proof.Machine

/-- The level of channel B in a PinSample (R8, R13). -/
def chanB (p : PinSample) : Level := p.extractLsb' 1 1

/-- The level of channel A in a PinSample (R8, R13). -/
def chanA (p : PinSample) : Level := p.extractLsb' 0 1

/-- The button line is active low: level 0 is "pressed" (R62, R124). -/
def pressed (l : Level) : Bool := l == 0

/-- `STATE_MASK` (R7, R66). -/
def stateMask : Byte := 0x0F

/-- `EVENT_MASK` (R7, R66). -/
def eventMask : Byte := 0x30

/-- The next-state field of an entry, `e & STATE_MASK` (R67). -/
def entryNxt (e : Byte) : Byte := e &&& stateMask

/-- The event field of an entry, `(e & EVENT_MASK) >> 4` (R67). -/
def entryEvc (e : Byte) : BitVec 2 := ((e &&& eventMask) >>> 4).truncate 2

end Sys2Proof.Machine
end

