-- ==== Sys2Proof/Machine/Flags.lean ====
section
/-! DEFINITION. The StepEvent, the block's only flag-like value (R28): its codes (R66) and its effect on the
position (R121). -/

namespace Sys2Proof.Machine

/-- The 2-bit code of a StepEvent (R66). -/
def StepEvent.code : StepEvent → BitVec 2
  | .none => 0b00
  | .cw   => 0b01
  | .ccw  => 0b10

/-- The StepEvent of an event field; `11` is no event (R67). -/
def StepEvent.ofCode (c : BitVec 2) : Option StepEvent :=
  if c = 0b00 then some .none
  else if c = 0b01 then some .cw
  else if c = 0b10 then some .ccw
  else Option.none

/-- `wrap_POS_WIDTH(pos + d)` for a counter of `w` bits (R10, R121, R122). -/
def addPos (w : Nat) (pos : Int) (d : Int) : Int := wrap w (pos + d)

/-- A counter value as its `w` bits in two's complement (R10, R26). -/
def posBits (w : Nat) (pos : Int) : BitVec w := BitVec.ofInt w pos

end Sys2Proof.Machine
end

