-- ==== Sys2Proof/Machine/Tables.lean ====
section
/-! DEFINITION. The state codes (R64, R65) and the transition-table ROM, the block's only memory (R40 to R43). -/

namespace Sys2Proof.Machine

/-- Full-step state codes (R64). -/
def FullState.code : FullState → Byte
  | .start    => 0x0
  | .cwFinal  => 0x1
  | .cwBegin  => 0x2
  | .cwNext   => 0x3
  | .ccwBegin => 0x4
  | .ccwFinal => 0x5
  | .ccwNext  => 0x6

/-- Half-step state codes (R65). -/
def HalfState.code : HalfState → Byte
  | .start     => 0x0
  | .ccwBegin  => 0x1
  | .cwBegin   => 0x2
  | .startM    => 0x3
  | .cwBeginM  => 0x4
  | .ccwBeginM => 0x5

/-- How many codes a mode has: 0 to 6, or 0 to 5 (R22). -/
def stateCount : Mode → Nat
  | .full => 7
  | .half => 6

/-- `st` holds a code of the mode (R22). -/
def legalCode (m : Mode) (st : Byte) : Bool := decide (st.toNat < stateCount m)

/-- The bytes of `T_FULL`, a row a line (R83). -/
def romBytesFull : List Byte :=
  [0x00, 0x02, 0x04, 0x00] ++
  [0x10, 0x00, 0x01, 0x03] ++
  [0x00, 0x02, 0x00, 0x03] ++
  [0x00, 0x02, 0x01, 0x03] ++
  [0x00, 0x00, 0x04, 0x06] ++
  [0x20, 0x05, 0x00, 0x06] ++
  [0x00, 0x05, 0x04, 0x06]

/-- The bytes of `T_HALF`, a row a line (R87). -/
def romBytesHalf : List Byte :=
  [0x00, 0x02, 0x01, 0x03] ++
  [0x00, 0x00, 0x01, 0x23] ++
  [0x00, 0x02, 0x00, 0x13] ++
  [0x00, 0x05, 0x04, 0x03] ++
  [0x10, 0x03, 0x04, 0x03] ++
  [0x20, 0x05, 0x03, 0x03]

/-- The bytes of the table `MODE` selects (R40, R80). -/
def romBytes : Mode → List Byte
  | .full => romBytesFull
  | .half => romBytesHalf

/-- A memory: its cells, at strictly rising addresses. An unlisted address does not exist (R41). -/
abbrev Memory := List Host.Cell

/-- Bytes laid out from an address on. -/
def cellsFrom (a : Nat) : List Byte → Memory
  | [] => []
  | b :: bs => (a, b) :: cellsFrom (a + 1) bs

/-- The ROM of a build: one of the two tables, row-major, from offset 0 (R40, R41). Nothing writes it (R42). -/
def rom (m : Mode) : Memory := cellsFrom 0 (romBytes m)

/-- `MemRead(a, 1)`: the byte at an address, or none where no byte exists (R9, R41). -/
def Memory.read (mem : Memory) (a : Nat) : Option Byte :=
  match mem with
  | [] => none
  | (a', b) :: rest => if a' = a then some b else Memory.read rest a

/-- The canonical form: strictly rising addresses. -/
def Memory.wf (mem : Memory) : Bool :=
  match mem with
  | [] => true
  | c :: rest => rest.all (fun d => decide (c.1 < d.1)) && Memory.wf rest

/-- The ROM offset of row `st`, column `p` (R41). -/
def romOffset (st : Byte) (p : PinSample) : Nat := 4 * st.toNat + p.toNat

/-- `T_MODE[st][p]` (R9, R43). -/
def tableRead (m : Mode) (st : Byte) (p : PinSample) : Option Byte := Memory.read (rom m) (romOffset st p)

end Sys2Proof.Machine
end

