-- ==== Sys2Proof/Machine/Ops.lean ====
section
/-! DEFINITION. The shared operations over the state. The block takes no exception and has no return from one
(R150, R156), so there is no such operation here. -/

namespace Sys2Proof.Machine

/-- `emit Diag(r)`: it appends a record in an observability build and does nothing in another (R9, R31). -/
def emit (r : DiagRecord) (s : State) : State :=
  if s.build.observability then { s with diag := s.diag ++ [r] } else s

/-- The start of a port-level cycle: the pulses return to 0 (R34, R183), and nothing is returned yet. -/
def beginCycle (s : State) : State :=
  { s with stepEvent := 0b00, diagStep := none, diagRstValid := false, ret := .nothing }

/-- `process(p)` (R88): one table read, the next-state field into `st`, the StepEvent of the event field. An `st`
without a row is refused (R172), as is an event field of `11` (R67). -/
def process (p : PinSample) (s : State) : Except Refusal (State × StepEvent) :=
  match tableRead s.build.mode s.st p with
  | none => .error (.illegalStateCode s.st)
  | some e =>
    match StepEvent.ofCode (entryEvc e) with
    | none => .error (.tableDefect e)
    | some ev => .ok ({ s with st := entryNxt e }, ev)

/-- `apply_step(ev)` (R121): plus or minus one, with wrap, and the record of the position after it. -/
def applyStep (ev : StepEvent) (s : State) : State :=
  match ev with
  | .cw   => emit (.cw (addPos s.posWidth s.pos 1)) { s with pos := addPos s.posWidth s.pos 1 }
  | .ccw  => emit (.ccw (addPos s.posWidth s.pos (-1))) { s with pos := addPos s.posWidth s.pos (-1) }
  | .none => s

/-- The output registers after a step event was applied (R132, R183). -/
def showStep (ev : StepEvent) (s : State) : State :=
  { s with
    stepEvent := ev.code
    diagStep :=
      if ev ≠ .none ∧ s.build.observability then some { dir := ev.code, pos := s.pos } else s.diagStep }

/-- An ENC_EDGE is taken (R89, R183): `process`, `apply_step`, the event returned and shown, one stimulus used (R30). -/
def takeEnc (p : PinSample) (s : State) : Host.Outcome State Fault Refusal :=
  match process p s with
  | .error r => .refused r
  | .ok (s₁, ev) =>
    .next { showStep ev (applyStep ev s₁) with ret := .event ev, index := s.index + 1 }

/-- The button reset: `pos` to 0 and its record (R124, R131), shown on `diag_rst_valid` (R183). -/
def resetPos (s : State) : State :=
  { emit .reset { s with pos := 0 } with diagRstValid := s.build.observability }

/-- A BTN_EDGE is taken (R124): level 0 resets the position, level 1 has no effect; one stimulus used (R30). It returns
nothing and leaves `ret` alone: taken after the ENC_EDGE of one port-level cycle, it leaves that ENC_EDGE's event there
(the model's choice, DESIGN CHOICE, log entry 6). -/
def takeBtn (l : Level) (s : State) : State :=
  let s₁ := if pressed l then resetPos s else s
  { s₁ with index := s.index + 1 }

/-- RESET (R170): the values of R35. The parameters, the deliveries still to come and the counter of the free
values stay (log entries 3 and 14). -/
def resetOp (s : State) : State :=
  { State.resetFor s.build with pending := s.pending, ticks := s.ticks }

/-- A cycle in which nothing is taken: only the pulses return to 0 (R34, R183). -/
def idle (s : State) : State := beginCycle { s with ticks := s.ticks + 1 }

/-- The first delivery is taken off the queue. -/
def popDelivery (rest : List Delivery) (s : State) : State := { s with pending := rest, ticks := s.ticks + 1 }

/-- Whether the encoder edge of a same-window pair comes first (R50); under `ANY`, a free value says. -/
def encComesFirst (s : State) : Bool :=
  match s.build.simulOrder with
  | .encFirst => true
  | .btnFirst => false
  | .any => Config.encFirst s.ticks

/-- A same-window pair in the order `SIMUL_ORDER` gives (R50). -/
def orderPair {α : Type} (encFirst : Bool) (x y : α) : α × α := if encFirst then (x, y) else (y, x)

/-- How many of `n` readers come before, between and after the edges of a window (R52); free values say. -/
def splitReaders (tick n : Nat) : Nat × Nat × Nat :=
  match n with
  | 0 => (0, 0, 0)
  | n + 1 =>
    let before := min (Config.readsBefore tick) (n + 1)
    let between := min (Config.readsBetween tick) (n + 1 - before)
    (before, between, n + 1 - before - between)

/-- The words of a window in the single total order of R51. -/
def windowWords (p : PinSample) (l : Level) (readers : Nat) (s : State) : List Delivery :=
  let pair := orderPair (encComesFirst s) (Instr.enc p) (Instr.btn l)
  let (before, between, after) := splitReaders s.ticks readers
  List.replicate before (.word (encode .read)) ++ .word (encode pair.1) ::
    (List.replicate between (.word (encode .read)) ++ .word (encode pair.2) ::
      List.replicate after (.word (encode .read)))

/-- The operations of a window get their places in the total order (R50 to R52); none of them is taken yet. -/
def arbitrate (p : PinSample) (l : Level) (readers : Nat) (s : State) : State :=
  { s with pending := windowWords p l readers s ++ s.pending, ret := .nothing }

/-- One notification is taken. -/
def takeNotice (n : Notice) (s : State) : Host.Outcome State Fault Refusal :=
  match n with
  | .enc p => takeEnc p s
  | .btn l => .next (takeBtn l s)

/-- Notifications taken one after the other. -/
def takeNotices (ns : List Notice) (s : State) : Host.Outcome State Fault Refusal :=
  match ns with
  | [] => .next s
  | n :: ns =>
    match takeNotice n s with
    | .next s' => takeNotices ns s'
    | .fault f => .fault f
    | .refused r => .refused r

/-- The notifications of a cycle in the order they are applied (R50, R183). -/
def cycleNotices (c : PortIn) (s : State) : List Notice :=
  match c.encValid, c.btnValid with
  | true, true =>
    let pair := orderPair (encComesFirst s) (Notice.enc c.encSample) (Notice.btn c.btnLevel)
    [pair.1, pair.2]
  | true, false => [.enc c.encSample]
  | false, true => [.btn c.btnLevel]
  | false, false => []

/-- A rising edge of `clk` (R183): RESET has precedence and discards the notifications (R171). What `ret`
holds after it is the event of its ENC_EDGE, if it took one, and nothing otherwise (log entry 6). -/
def portCycle (c : PortIn) (s : State) : Host.Outcome State Fault Refusal :=
  if c.rst then .next (resetOp s) else takeNotices (cycleNotices c s) (beginCycle s)

/-- The port `position` (R33, R46): the `POS_WIDTH` bits of `pos` (R44). -/
def State.positionPort (s : State) : BitVec s.posWidth := posBits s.posWidth s.pos

/-- The port `step_event` (R33). -/
def State.stepEventPort (s : State) : BitVec 2 := s.stepEvent

/-- The port `diag_step_valid`, present only in an observability build (R33). -/
def State.diagStepValidPort (s : State) : Option (BitVec 1) :=
  if s.build.observability then some (BitVec.ofBool s.diagStep.isSome) else none

/-- The port `diag_step_dir`, present only in an observability build; any value while `diag_step_valid = 0` (I7). -/
def State.diagStepDirPort (s : State) : Option (BitVec 2) :=
  if s.build.observability then
    match s.diagStep with
    | some d => some d.dir
    | none => some (Config.freeDiagDir s.ticks)
  else none

/-- The port `diag_step_pos`, present only in an observability build; any value while `diag_step_valid = 0` (I7). -/
def State.diagStepPosPort (s : State) : Option (BitVec s.posWidth) :=
  if s.build.observability then
    match s.diagStep with
    | some d => some (posBits s.posWidth d.pos)
    | none => some (Config.freeDiagPos s.posWidth s.ticks)
  else none

/-- The port `diag_rst_valid`, present only in an observability build (R33). -/
def State.diagRstValidPort (s : State) : Option (BitVec 1) :=
  if s.build.observability then some (BitVec.ofBool s.diagRstValid) else none

end Sys2Proof.Machine
end

