-- ==== Sys2Proof/Machine/Button.lean ====
section
/-! DEFINITION. The meaning of BTN_EDGE. -/

namespace Sys2Proof.Machine

/-- BTN_EDGE (R124): one atomic step, at the port level a cycle with `btn_valid = 1` (R70). It neither reads nor
writes `st` (R125). -/
def execBtn (l : Level) (s : State) : Host.Outcome State Fault Refusal := .next (takeBtn l (beginCycle s))

end Sys2Proof.Machine
end

