-- ==== Sys2Proof/Machine/Encoder.lean ====
section
/-! DEFINITION. The meaning of ENC_EDGE. -/

namespace Sys2Proof.Machine

/-- ENC_EDGE (R89): one atomic step, at the port level a cycle with `enc_valid = 1` (R70). -/
def execEnc (p : PinSample) (s : State) : Host.Outcome State Fault Refusal := takeEnc p (beginCycle s)

end Sys2Proof.Machine
end

