-- ==== Sys2Proof/Machine/Reader.lean ====
section
/-! DEFINITION. The meaning of READ_POS. -/

namespace Sys2Proof.Machine

/-- READ_POS (R130): it returns `pos`, whole (R46), and has no side effect (R47). It samples the port `position`
between two rising edges (R70), so the pulses stay (log entry 10). -/
def execRead (s : State) : Host.Outcome State Fault Refusal :=
  .next { s with ret := .position s.pos, index := s.index + 1 }

end Sys2Proof.Machine
end

