-- ==== Sys2Proof/Machine/Dispatch.lean ====
section
/-! DEFINITION. One arm per operation of the opcode table. -/

namespace Sys2Proof.Machine

def exec (i : Instr) (s : State) : Host.Outcome State Fault Refusal :=
  match i with
  | .enc p => Sys2Proof.Machine.execEnc p s
  | .btn l => Sys2Proof.Machine.execBtn l s
  | .read => Sys2Proof.Machine.execRead s

end Sys2Proof.Machine
end

