-- ==== Sys2Proof/Machine/Deliver.lean ====
section
/-! DEFINITION. What the machine does with one delivery. -/

namespace Sys2Proof.Machine

/-- A stimulus word is decoded and run; a RESERVED word is refused (R68, R69). -/
def runWord (w : Byte) (s : State) : Host.Outcome State Fault Refusal :=
  match decode w with
  | .ok i => exec i s
  | .error why => .refused (.reservedWord w why)

/-- One delivery is handled. -/
def deliver (d : Delivery) (s : State) : Host.Outcome State Fault Refusal :=
  match d with
  | .word w => runWord w s
  | .reset => .next (resetOp s)
  | .window p l n => .next (arbitrate p l n s)
  | .cycle c => portCycle c s

end Sys2Proof.Machine
end

