-- ==== Sys2Proof/Machine/Step.lean ====
section
/-! DEFINITION. One step of the machine, and how a word is placed where the next step fetches it. -/

namespace Sys2Proof.Machine

/-- One step: the first delivery is taken off the queue and handled. With nothing delivered the block stays as it
is, its pulses back at 0: an idle cycle of R183 (log entry 5). -/
def step (s : State) : Host.Outcome State Fault Refusal :=
  match s.pending with
  | [] => .next (idle s)
  | d :: rest => deliver d (popDelivery rest s)

/-- The state with a word delivered next: the block has no stored program, its trace is its program (R30). -/
def State.withFetchWord (s : State) (nbits w : Nat) : State :=
  { s with pending := .word (tableWord nbits w) :: s.pending }

end Sys2Proof.Machine
end

