-- ==== Sys2Proof/Machine/Assembler.lean ====
section
/-! DEFINITION. The assembler syntax (R71) and the pseudo-instructions (R72), over lists of characters. -/

namespace Sys2Proof

/-- The expansion of a pseudo-instruction (R72). -/
def Pseudo.expand : Pseudo → List Instr
  | .press   => [.btn 0]
  | .release => [.btn 1]
  | .cw      => [.enc 1, .enc 3, .enc 2, .enc 0]
  | .ccw     => [.enc 2, .enc 3, .enc 1, .enc 0]
  | .rest    => [.enc 0]

/-- The name of a pseudo-instruction (R72). -/
def Pseudo.name : Pseudo → List Char
  | .press   => "press".toList
  | .release => "release".toList
  | .cw      => "cw".toList
  | .ccw     => "ccw".toList
  | .rest    => "rest".toList

namespace Machine

/-- `;` begins a comment that runs to the end of the line (R71; log entry 16). -/
def stripComment : List Char → List Char
  | [] => []
  | c :: cs => if c = ';' then [] else c :: stripComment cs

/-- The words of a line, between spaces and tabs; `cur` is the word begun, its last character first. -/
def lineWords (cur : List Char) : List Char → List (List Char)
  | [] => if cur = [] then [] else [cur.reverse]
  | c :: cs =>
    if c = ' ' ∨ c = '\t' then
      if cur = [] then lineWords [] cs else cur.reverse :: lineWords [] cs
    else lineWords (c :: cur) cs

/-- A binary digit. -/
def parseLevel : List Char → Option Level
  | ['0'] => some 0
  | ['1'] => some 1
  | _ => none

/-- A sample: a decimal `0` to `3` or a binary `0bBA` (R71). -/
def parseSample : List Char → Option PinSample
  | ['0'] => some 0
  | ['1'] => some 1
  | ['2'] => some 2
  | ['3'] => some 3
  | ['0', 'b', b, a] =>
    match parseLevel [b], parseLevel [a] with
    | some b, some a => some (b ++ a)
    | _, _ => none
  | _ => none

/-- A word that is a whole line: `read` or a pseudo-instruction (R71, R72). -/
def parsePlain (m : List Char) : Option (List Instr) :=
  if m = "read".toList then some [.read]
  else
    match [Pseudo.press, .release, .cw, .ccw, .rest].find? (fun q => m = q.name) with
    | some q => some q.expand
    | none => none

/-- The stimuli of one line, none where the line is not of the syntax; an empty line has none (R71, R72). -/
def parseLine (line : List Char) : Option (List Instr) :=
  match lineWords [] (stripComment line) with
  | [] => some []
  | [m] => parsePlain m
  | [m, a] =>
    if m = "enc".toList then (parseSample a).map (fun p => [.enc p])
    else if m = "btn".toList then (parseLevel a).map (fun l => [.btn l])
    else none
  | _ => none

/-- The decimal digit of a number below 4. -/
def digit (n : Nat) : Char :=
  match n with
  | 0 => '0'
  | 1 => '1'
  | 2 => '2'
  | _ => '3'

/-- One stimulus as a line (R71). -/
def printInstr : Instr → List Char
  | .enc p => "enc ".toList ++ [digit p.toNat]
  | .btn l => "btn ".toList ++ [digit l.toNat]
  | .read  => "read".toList

/-- The words of a list of stimuli, as deliveries of a trace (R60). -/
def deliveriesOf (is : List Instr) : List Delivery := is.map (fun i => .word (encode i))

end Machine
end Sys2Proof
end

