-- ==== Sys2Proof/Safety.lean ====
section
/-! DEFINITION. The terms the claims are stated in: runs of operations, legal states, the invariant, and the spec's
rules written a second time in the spec's own names, apart from the bytes and functions the machine runs on. -/

namespace Sys2Proof.Machine

/-! ## Runs -/

/-- Operations taken one after the other, up to the first that stops. -/
def execAll (is : List Instr) (s : State) : Host.Outcome State Fault Refusal :=
  match is with
  | [] => .next s
  | i :: is =>
    match exec i s with
    | .next t => execAll is t
    | .fault f => .fault f
    | .refused r => .refused r

/-- The states after each operation of a run, up to the first that stops. -/
def trail (is : List Instr) (s : State) : List State :=
  match is with
  | [] => []
  | i :: is =>
    match exec i s with
    | .next t => t :: trail is t
    | _ => []

/-- What each operation of a run returned. -/
def returns (is : List Instr) (s : State) : List Returned := (trail is s).map State.ret

/-- A trace of samples as ENC_EDGEs. -/
def samples (ps : List PinSample) : List Instr := ps.map Instr.enc

/-- The states after each of `k` steps. -/
def stepTrail (k : Nat) (s : State) : List State :=
  match k with
  | 0 => []
  | k + 1 =>
    match step s with
    | .next t => t :: stepTrail k t
    | _ => []

/-- The values the reads among some states returned, in order. -/
def readValues (ts : List State) : List Int :=
  ts.filterMap fun t =>
    match t.ret with
    | .position v => some v
    | _ => none

/-- The block's four atomic operations (R45): the three with a word, and RESET. -/
inductive Operation
  | stimulus (i : Instr)
  | reset
deriving DecidableEq, Repr

/-- One operation. -/
def runOperation (o : Operation) (s : State) : Host.Outcome State Fault Refusal :=
  match o with
  | .stimulus i => exec i s
  | .reset => .next (resetOp s)

/-- The states after each operation, up to the first that stops. -/
def operationTrail (os : List Operation) (s : State) : List State :=
  match os with
  | [] => []
  | o :: os =>
    match runOperation o s with
    | .next t => t :: operationTrail os t
    | _ => []

/-! ## Legal states and the invariant -/

/-- `st` holds a code of the build's mode (R22). -/
abbrev State.Legal (s : State) : Prop := legalCode s.build.mode s.st = true

/-- The values a counter of `w` bits can hold: from `-2^(w-1)` to `2^(w-1) - 1` (R26). -/
abbrev fits (w : Nat) (v : Int) : Prop := -2 ^ (w - 1) ≤ v ∧ v < 2 ^ (w - 1)

/-- What holds of the machine between two steps: a legal code (R22); every position held or returned a value of
`POS_WIDTH` bits (R26, R31, R33, R130); `step_event` never `11` (R66); a build without
observability has no record and no diagnostic output (R31, R33); a valid `diag_step` output repeats the event code
shown on `step_event`, and the position unless a reset came in the same cycle (R132). -/
structure State.Inv (s : State) : Prop where
  legal : s.Legal
  posFits : fits s.posWidth s.pos
  recordsFit : ∀ v, .cw v ∈ s.diag ∨ .ccw v ∈ s.diag → fits s.posWidth v
  shownFits : ∀ d, s.diagStep = some d → fits s.posWidth d.pos
  returnedFits : ∀ v, s.ret = .position v → fits s.posWidth v
  eventCode : s.stepEvent ≠ 0b11
  silent : s.build.observability = false → s.diag = [] ∧ s.diagStep = none ∧ s.diagRstValid = false
  shown : ∀ d, s.diagStep = some d → d.dir = s.stepEvent ∧ d.dir ≠ 0b00
  shownPos : ∀ d, s.diagStep = some d → s.diagRstValid = false → d.pos = s.pos

/-! ## The tables in the spec's names -/

/-- `T_FULL` as R83 names its cells. -/
def fullCell : FullState → PinSample → FullState × StepEvent
  | .start,    0b00 => (.start, .none)
  | .start,    0b01 => (.cwBegin, .none)
  | .start,    0b10 => (.ccwBegin, .none)
  | .start,    0b11 => (.start, .none)
  | .cwFinal,  0b00 => (.start, .cw)
  | .cwFinal,  0b01 => (.start, .none)
  | .cwFinal,  0b10 => (.cwFinal, .none)
  | .cwFinal,  0b11 => (.cwNext, .none)
  | .cwBegin,  0b00 => (.start, .none)
  | .cwBegin,  0b01 => (.cwBegin, .none)
  | .cwBegin,  0b10 => (.start, .none)
  | .cwBegin,  0b11 => (.cwNext, .none)
  | .cwNext,   0b00 => (.start, .none)
  | .cwNext,   0b01 => (.cwBegin, .none)
  | .cwNext,   0b10 => (.cwFinal, .none)
  | .cwNext,   0b11 => (.cwNext, .none)
  | .ccwBegin, 0b00 => (.start, .none)
  | .ccwBegin, 0b01 => (.start, .none)
  | .ccwBegin, 0b10 => (.ccwBegin, .none)
  | .ccwBegin, 0b11 => (.ccwNext, .none)
  | .ccwFinal, 0b00 => (.start, .ccw)
  | .ccwFinal, 0b01 => (.ccwFinal, .none)
  | .ccwFinal, 0b10 => (.start, .none)
  | .ccwFinal, 0b11 => (.ccwNext, .none)
  | .ccwNext,  0b00 => (.start, .none)
  | .ccwNext,  0b01 => (.ccwFinal, .none)
  | .ccwNext,  0b10 => (.ccwBegin, .none)
  | .ccwNext,  0b11 => (.ccwNext, .none)

/-- `T_HALF` as R87 names its cells. -/
def halfCell : HalfState → PinSample → HalfState × StepEvent
  | .start,     0b00 => (.start, .none)
  | .start,     0b01 => (.cwBegin, .none)
  | .start,     0b10 => (.ccwBegin, .none)
  | .start,     0b11 => (.startM, .none)
  | .ccwBegin,  0b00 => (.start, .none)
  | .ccwBegin,  0b01 => (.start, .none)
  | .ccwBegin,  0b10 => (.ccwBegin, .none)
  | .ccwBegin,  0b11 => (.startM, .ccw)
  | .cwBegin,   0b00 => (.start, .none)
  | .cwBegin,   0b01 => (.cwBegin, .none)
  | .cwBegin,   0b10 => (.start, .none)
  | .cwBegin,   0b11 => (.startM, .cw)
  | .startM,    0b00 => (.start, .none)
  | .startM,    0b01 => (.ccwBeginM, .none)
  | .startM,    0b10 => (.cwBeginM, .none)
  | .startM,    0b11 => (.startM, .none)
  | .cwBeginM,  0b00 => (.start, .cw)
  | .cwBeginM,  0b01 => (.startM, .none)
  | .cwBeginM,  0b10 => (.cwBeginM, .none)
  | .cwBeginM,  0b11 => (.startM, .none)
  | .ccwBeginM, 0b00 => (.start, .ccw)
  | .ccwBeginM, 0b01 => (.ccwBeginM, .none)
  | .ccwBeginM, 0b10 => (.startM, .none)
  | .ccwBeginM, 0b11 => (.startM, .none)

/-- The entry byte of a cell (R66): the next-state code, with `DIR_CW = 0x10` or `DIR_CCW = 0x20`. -/
def entryByte (nxt : Byte) : StepEvent → Byte
  | .none => nxt
  | .cw   => nxt ||| 0x10
  | .ccw  => nxt ||| 0x20

/-! ## What one operation leaves -/

/-- The position of a counter of `w` bits after a step event (R121, R122). -/
def posAfter (w : Nat) (ev : StepEvent) (pos : Int) : Int :=
  match ev with
  | .none => pos
  | .cw   => wrap w (pos + 1)
  | .ccw  => wrap w (pos - 1)

/-- The records of a step that leaves the position `pos` (R131). -/
def stepRecords (obs : Bool) (ev : StepEvent) (pos : Int) : List DiagRecord :=
  match obs, ev with
  | true, .cw  => [.cw pos]
  | true, .ccw => [.ccw pos]
  | _, _ => []

/-- The `diag_step` output of a step that leaves the position `pos` (R66, R132). -/
def stepShown (obs : Bool) (ev : StepEvent) (pos : Int) : Option DiagStep :=
  match obs, ev with
  | true, .cw  => some { dir := 0b01, pos := pos }
  | true, .ccw => some { dir := 0b10, pos := pos }
  | _, _ => none

/-- The code of an event on `step_event` (R66). -/
def shownCode : StepEvent → BitVec 2
  | .none => 0b00
  | .cw   => 0b01
  | .ccw  => 0b10

/-- The state after an ENC_EDGE whose table cell gives `st'` and `ev` (R88, R89, R121, R131, R132): nothing but the
fields named here differs. -/
def encNext (s : State) (st' : Byte) (ev : StepEvent) : State :=
  { s with
    st := st'
    pos := posAfter s.posWidth ev s.pos
    index := s.index + 1
    diag := s.diag ++ stepRecords s.build.observability ev (posAfter s.posWidth ev s.pos)
    stepEvent := shownCode ev
    diagStep := stepShown s.build.observability ev (posAfter s.posWidth ev s.pos)
    diagRstValid := false
    ret := .event ev }

/-! ## Gray-code vocabulary -/

/-- A direction of rotation, as the code sequence it is (R82, I9). -/
inductive Dir
  | cw
  | ccw
deriving DecidableEq, Repr

/-- The event of a completed step of a direction. -/
def Dir.event : Dir → StepEvent
  | .cw  => .cw
  | .ccw => .ccw

/-- The code that follows a code in a direction's cycle: 00→01→11→10→00, or its mirror (R82). -/
def Dir.succ : Dir → PinSample → PinSample
  | .cw,  0b00 => 0b01
  | .cw,  0b01 => 0b11
  | .cw,  0b11 => 0b10
  | .cw,  0b10 => 0b00
  | .ccw, 0b00 => 0b10
  | .ccw, 0b10 => 0b11
  | .ccw, 0b11 => 0b01
  | .ccw, 0b01 => 0b00

/-- The four samples of one clean cycle from the rest code (R72, R82). -/
def Dir.cycle : Dir → List PinSample
  | .cw  => [0b01, 0b11, 0b10, 0b00]
  | .ccw => [0b10, 0b11, 0b01, 0b00]

/-- The full-step state of a direction at a code: START at the rest code, else the sub-state with these pins (R64). -/
def Dir.state : Dir → PinSample → FullState
  | _,    0b00 => .start
  | .cw,  0b01 => .cwBegin
  | .cw,  0b11 => .cwNext
  | .cw,  0b10 => .cwFinal
  | .ccw, 0b10 => .ccwBegin
  | .ccw, 0b11 => .ccwNext
  | .ccw, 0b01 => .ccwFinal

/-- Both channels change (R14). -/
abbrev doubleJump (c p : PinSample) : Prop := p = c ^^^ 0b11

/-- The pin code of a full-step state (R64, R84). -/
def fullPins : FullState → PinSample
  | .start    => 0b00
  | .cwFinal  => 0b10
  | .cwBegin  => 0b01
  | .cwNext   => 0b11
  | .ccwBegin => 0b10
  | .ccwFinal => 0b01
  | .ccwNext  => 0b11

/-- The pin code of a half-step state (R65, R87). -/
def halfPins : HalfState → PinSample
  | .start     => 0b00
  | .ccwBegin  => 0b10
  | .cwBegin   => 0b01
  | .startM    => 0b11
  | .cwBeginM  => 0b10
  | .ccwBeginM => 0b01

/-- The predecessors of a full-step sub-state (R92). -/
def fullPreds : FullState → List FullState
  | .start    => []
  | .cwBegin  => [.start, .cwBegin, .cwNext]
  | .cwNext   => [.cwBegin, .cwNext, .cwFinal]
  | .cwFinal  => [.cwNext, .cwFinal]
  | .ccwBegin => [.start, .ccwBegin, .ccwNext]
  | .ccwNext  => [.ccwBegin, .ccwNext, .ccwFinal]
  | .ccwFinal => [.ccwNext, .ccwFinal]

/-- The predecessors of a half-step sub-state (R92). -/
def halfPreds : HalfState → List HalfState
  | .start     => []
  | .startM    => []
  | .cwBegin   => [.start, .cwBegin]
  | .ccwBegin  => [.start, .ccwBegin]
  | .cwBeginM  => [.startM, .cwBeginM]
  | .ccwBeginM => [.startM, .ccwBeginM]

/-- The half-step sub-state that leaves a rest state in a direction (R87), the rest state it left, and the one it
makes for. -/
structure HalfLeg where
  origin : HalfState
  sub    : HalfState
  target : HalfState
  dir    : Dir
deriving DecidableEq, Repr

/-- The four legs of half-step decoding: a direction away from 00 and away from 11 (R87). -/
def halfLegs : List HalfLeg :=
  [{ origin := .start, sub := .cwBegin, target := .startM, dir := .cw },
   { origin := .start, sub := .ccwBegin, target := .startM, dir := .ccw },
   { origin := .startM, sub := .cwBeginM, target := .start, dir := .cw },
   { origin := .startM, sub := .ccwBeginM, target := .start, dir := .ccw }]

/-! ## Deliveries and linearisations -/

/-- The delivery holds an ENC_EDGE that the block takes. -/
def Delivery.holdsEnc : Delivery → Bool
  | .word w => [0x40#8, 0x41#8, 0x42#8, 0x43#8].contains w
  | .cycle c => !c.rst && c.encValid
  | _ => false

/-- The delivery holds a pressed button that the block takes. -/
def Delivery.holdsPress : Delivery → Bool
  | .word w => w == 0x80
  | .cycle c => !c.rst && c.btnValid && c.btnLevel == 0
  | _ => false

/-- The delivery is a RESET. -/
def Delivery.holdsReset : Delivery → Bool
  | .reset => true
  | .cycle c => c.rst
  | _ => false

/-- The delivery is no RESERVED word (R68). -/
def Delivery.notReserved : Delivery → Bool
  | .word w => [0x40#8, 0x41#8, 0x42#8, 0x43#8, 0x80#8, 0x81#8, 0xC0#8].contains w
  | _ => true

/-- `o₁` comes before `o₂` in a list. -/
def comesBefore (o₁ o₂ : Operation) (os : List Operation) : Prop := [o₁, o₂].Sublist os

/-- The order `SIMUL_ORDER` admits for a same-window pair (R50): under `ANY`, either. -/
def orderAdmitted (o : SimulOrder) (p : PinSample) (l : Level) (os : List Operation) : Prop :=
  match o with
  | .encFirst => comesBefore (.stimulus (.enc p)) (.stimulus (.btn l)) os
  | .btnFirst => comesBefore (.stimulus (.btn l)) (.stimulus (.enc p)) os
  | .any => True

/-- A total order of the operations of one delivery that R50, R51 and R171 admit. -/
def Delivery.Admits (o : SimulOrder) (d : Delivery) (os : List Operation) : Prop :=
  match d with
  | .word w => ∃ i, decode w = .ok i ∧ os = [.stimulus i]
  | .reset => os = [.reset]
  | .window p l n =>
    os.Perm (.stimulus (.enc p) :: .stimulus (.btn l) :: List.replicate n (.stimulus .read)) ∧
      orderAdmitted o p l os
  | .cycle c =>
    if c.rst then os = [.reset]
    else
      os.Perm ((if c.encValid then [.stimulus (.enc c.encSample)] else []) ++
          (if c.btnValid then [.stimulus (.btn c.btnLevel)] else [])) ∧
        (c.encValid = true → c.btnValid = true → orderAdmitted o c.encSample c.btnLevel os)

end Sys2Proof.Machine
end

