-- ==== Sys2Proof/Certificates/Slice0/Obligations.lean ====
section
/-! DEFINITION. The statements for the provers. Each docstring names the rules it formalises; where a statement
holds of every state it holds of states no run reaches as well. -/

open Sys2Proof Sys2Proof.Machine

/-! ## Encodings -/

/-- R68: exactly seven words are operations, and each is the operation the rule names; all others are RESERVED. -/
def Obligations.SevenWordsDecode : Prop :=
  (∀ p : PinSample, decode (0x40#8 ||| p.zeroExtend 8) = .ok (.enc p)) ∧
  (∀ l : Level, decode (0x80#8 ||| l.zeroExtend 8) = .ok (.btn l)) ∧
  decode 0xC0 = .ok .read ∧
  (∀ w : Byte, w ∉ [0x40#8, 0x41#8, 0x42#8, 0x43#8, 0x80#8, 0x81#8, 0xC0#8] → ∃ why, decode w = .error why)

/-- DEC-1 to DEC-10 of 95_test_vectors.md, words written out from R60 to R63 bit by bit, with a reason for each
RESERVED word. The spec gives no order among reasons: which of two is named (of DEC-10's word 0xFF, the field `rsv`) is
the model's choice (log entry 13). -/
def Obligations.SpecWordsDecode : Prop :=
  decode 0b01000000 = .ok (.enc 0b00) ∧ decode 0b01000011 = .ok (.enc 0b11) ∧
  decode 0b10000000 = .ok (.btn 0) ∧ decode 0b10000001 = .ok (.btn 1) ∧ decode 0b11000000 = .ok .read ∧
  decode 0b00000000 = .error .opZero ∧ decode 0b01000100 = .error .rsvNonzero ∧
  decode 0b10000010 = .error .btnOperand ∧ decode 0b11000001 = .error .readOperand ∧
  decode 0b11111111 = .error .rsvNonzero

/-- R60 to R63, R68: decoding an encoded instruction gives it back, a word that decodes is its instruction's
encoding, and a word decodes exactly when its fields are well-formed, then with those fields. -/
def Obligations.DecodeEncodeAgree : Prop :=
  (∀ i : Instr, i.wellFormed = true → decode (encode i) = .ok i) ∧
  (∀ (w : Byte) (i : Instr), decode w = .ok i → encode i = w ∧ i.fields = fieldsOf w ∧ i.wellFormed = true) ∧
  (∀ w : Byte, (fieldsOf w).wellFormed = true ↔ ∃ i, decode w = .ok i)

/-- R67: the two fields of an entry are its bits [3:0] and [5:4], and `evc` is read as R66 codes it. -/
def Obligations.EntryFieldsAreBitRanges : Prop :=
  ∀ e : Byte,
    entryNxt e = (e.extractLsb' 0 4).zeroExtend 8 ∧ entryEvc e = e.extractLsb' 4 2 ∧
    (e.extractLsb' 4 2 = 0b00 → StepEvent.ofCode (entryEvc e) = some .none) ∧
    (e.extractLsb' 4 2 = 0b01 → StepEvent.ofCode (entryEvc e) = some .cw) ∧
    (e.extractLsb' 4 2 = 0b10 → StepEvent.ofCode (entryEvc e) = some .ccw)

/-- R72: the words of the pseudo-instructions. -/
def Obligations.PseudoInstructionWords : Prop :=
  Pseudo.press.expand.map encode = [0x80] ∧ Pseudo.release.expand.map encode = [0x81] ∧
  Pseudo.cw.expand.map encode = [0x41, 0x43, 0x42, 0x40] ∧
  Pseudo.ccw.expand.map encode = [0x42, 0x43, 0x41, 0x40] ∧
  Pseudo.rest.expand.map encode = [0x40]

/-- R71: every instruction's line is read back as that instruction, also with a comment behind it, and a sample may
be written `0bBA`. That whatever stands behind a `;` is a comment, another stimulus too, is the model's choice between
R71 and the programs of 95_test_vectors.md that part stimuli with it (log entry 16). -/
def Obligations.AssemblerReadsLines : Prop :=
  (∀ (i : Instr) (comment : List Char), parseLine (printInstr i ++ [' ', ';'] ++ comment) = some [i]) ∧
  (∀ i : Instr, parseLine (printInstr i) = some [i]) ∧
  (∀ b a : Level, parseLine ("enc 0b".toList ++ [digit b.toNat, digit a.toNat]) = some [.enc (b ++ a)]) ∧
  (∀ comment : List Char, parseLine (';' :: comment) = some [])

/-! ## The transition-table ROM -/

/-- R41: the ROM is a memory in canonical form with a byte at each offset below 28 (FULL) or 24 (HALF) and none past
them, and the entry of row `st`, column `p` is at `4*st + p`. -/
def Obligations.RomLayout : Prop :=
  (∀ m, Memory.wf (rom m) = true) ∧
  (∀ a, (Memory.read (rom .full) a).isSome = true ↔ a < 28) ∧
  (∀ a, (Memory.read (rom .half) a).isSome = true ↔ a < 24) ∧
  (∀ m st p, tableRead m st p = Memory.read (rom m) (4 * BitVec.toNat st + BitVec.toNat p))

/-- R43: from a legal code the index is in range, so the read gives an entry; R22, R67: its next-state field is a
legal code again and its event field is no `11`. -/
def Obligations.TableReadsStayInRange : Prop :=
  ∀ (m : Mode) (st : Byte) (p : PinSample), legalCode m st = true →
    ∃ e, tableRead m st p = some e ∧ legalCode m (entryNxt e) = true ∧ entryEvc e ≠ 0b11

/-! ## Reset -/

/-- R35: the value of every element after RESET, in a build of any parameters. -/
def Obligations.ResetLeavesStartAndZero : Prop :=
  ∀ b : Build,
    (State.resetFor b).st = 0x00 ∧ (State.resetFor b).st = FullState.start.code ∧
    (State.resetFor b).st = HalfState.start.code ∧ (State.resetFor b).pos = 0 ∧
    (State.resetFor b).stepEvent = 0b00 ∧ (State.resetFor b).diagStep = none ∧
    (State.resetFor b).diagRstValid = false ∧ (State.resetFor b).diag = [] ∧ (State.resetFor b).index = 0 ∧
    (State.resetFor b).build = b

/-- R170, R35: RESET, delivered as an operation in any state, legal or not, leaves the values of R35. That the
deliveries still to come stay is the model's choice (log entry 3). -/
def Obligations.ResetOperationRuns : Prop :=
  ∀ (s : State) (rest : List Delivery), s.pending = .reset :: rest →
    ∃ t, step s = .next t ∧ t.st = 0x00 ∧ t.pos = 0 ∧ t.stepEvent = 0b00 ∧ t.diagStep = none ∧
      t.diagRstValid = false ∧ t.diag = [] ∧ t.index = 0 ∧ t.build = s.build ∧ t.pending = rest

/-- R171: in a cycle with `rst = 1` the notifications have no effect and no record: whatever they are, the next
state is the one the operation RESET gives in their place. -/
def Obligations.ResetCycleDiscardsNotifications : Prop :=
  ∀ (s : State) (c : PortIn) (rest : List Delivery), c.rst = true → s.pending = .cycle c :: rest →
    ∃ t, step s = .next t ∧ step { s with pending := .reset :: rest } = .next t ∧
      t.st = 0x00 ∧ t.pos = 0 ∧ t.diag = [] ∧ t.index = 0 ∧ t.stepEvent = 0b00 ∧ t.diagStep = none ∧
      t.diagRstValid = false

/-- R173: the first ENC_EDGE after RESET is decoded from START whatever the encoder's position: from any state, after a
RESET of either level (a cycle with `rst = 1` may present any sample and level), for every sample, in both modes. -/
def Obligations.FirstSampleAfterReset : Prop :=
  ∀ (s : State) (d : Delivery) (p : PinSample) (rest : List Delivery), d.holdsReset = true →
    s.pending = d :: .word (encode (.enc p)) :: rest →
      ∃ t, Host.Core.run Sys2Proof.core 2 s = .next t ∧ t.ret = .event .none ∧
        (s.build.mode = .full →
          (p = 0b00 ∨ p = 0b11 → t.st = FullState.start.code) ∧
          (p = 0b01 → t.st = FullState.cwBegin.code) ∧ (p = 0b10 → t.st = FullState.ccwBegin.code)) ∧
        (s.build.mode = .half →
          (p = 0b00 → t.st = HalfState.start.code) ∧ (p = 0b11 → t.st = HalfState.startM.code) ∧
          (p = 0b01 → t.st = HalfState.cwBegin.code) ∧ (p = 0b10 → t.st = HalfState.ccwBegin.code))

/-! ## Stepping -/

/-- R30, R68: a step whose next delivery is a word that decodes runs that instruction, with the delivery off the
queue and the free values' counter one further; and so does the step after `withFetchWord`. -/
def Obligations.StepRunsDecodedInstruction : Prop :=
  (∀ (s : State) (w : Byte) (i : Instr) (rest : List Delivery),
    s.pending = .word w :: rest → decode w = .ok i →
      step s = exec i { s with pending := rest, ticks := s.ticks + 1 }) ∧
  (∀ (s : State) (nbits w : Nat) (i : Instr), decodeTableWord nbits w = some i →
    step (s.withFetchWord nbits w) = exec i { s with ticks := s.ticks + 1 })

/-- R69: a step whose next delivery is a RESERVED word is refused under that word's name. -/
def Obligations.ReservedWordIsRefused : Prop :=
  ∀ (s : State) (w : Byte) (rest : List Delivery), s.pending = .word w :: rest →
    w ∉ [0x40#8, 0x41#8, 0x42#8, 0x43#8, 0x80#8, 0x81#8, 0xC0#8] →
      ∃ why, step s = .refused (.reservedWord w why)

/-- R34: with nothing delivered, and in a cycle with no notification, the pulses return to 0 and no other element of
the block changes. (That a step with nothing delivered is such a cycle is the model's choice, log entry 5.) -/
def Obligations.PulsesLastOneCycle : Prop :=
  ∀ (s : State) (c : PortIn) (rest : List Delivery),
    c.rst = false → c.encValid = false → c.btnValid = false →
      step { s with pending := [] } = .next { s with
        pending := [], ticks := s.ticks + 1, ret := .nothing
        stepEvent := 0b00, diagStep := none, diagRstValid := false } ∧
      step { s with pending := .cycle c :: rest } = .next { s with
        pending := rest, ticks := s.ticks + 1, ret := .nothing
        stepEvent := 0b00, diagStep := none, diagRstValid := false }

/-! ## ENC_EDGE -/

/-- R83, with R88, R89, R121 for what is done with a cell: in a full-step build the entry of every state and sample
is the byte R83 gives at offset `4*s + p`, and ENC_EDGE completes with the cell's next state and event. The equality
with `encNext` is also its frame: the fields `encNext` does not name keep their values. -/
def Obligations.FullStepEncEdge : Prop :=
  ∀ (s : State) (q : FullState) (p : PinSample), s.build.mode = .full → s.st = q.code →
    Memory.read (rom .full) (4 * q.code.toNat + p.toNat) =
      some (entryByte (fullCell q p).1.code (fullCell q p).2) ∧
    exec (.enc p) s = .next (encNext s (fullCell q p).1.code (fullCell q p).2)

/-- R87 (cells and byte array), with R88, R89, R121: the same in a half-step build. -/
def Obligations.HalfStepEncEdge : Prop :=
  ∀ (s : State) (q : HalfState) (p : PinSample), s.build.mode = .half → s.st = q.code →
    Memory.read (rom .half) (4 * q.code.toNat + p.toNat) =
      some (entryByte (halfCell q p).1.code (halfCell q p).2) ∧
    exec (.enc p) s = .next (encNext s (halfCell q p).1.code (halfCell q p).2)

/-- R22: after reset and after every ENC_EDGE `st` is a code of the mode, bits [7:4] zero; and from a legal code every
sample completes (R90). -/
def Obligations.StHoldsLegalCode : Prop :=
  (∀ b : Build, (State.resetFor b).Legal ∧ (State.resetFor b).st.extractLsb' 4 4 = 0) ∧
  (∀ (s t : State) (p : PinSample), exec (.enc p) s = .next t →
    t.st.extractLsb' 4 4 = 0 ∧
    (s.build.mode = .full → t.st ∈ [0#8, 1#8, 2#8, 3#8, 4#8, 5#8, 6#8]) ∧
    (s.build.mode = .half → t.st ∈ [0#8, 1#8, 2#8, 3#8, 4#8, 5#8])) ∧
  (∀ (s : State) (p : PinSample), s.Legal → ∃ t, exec (.enc p) s = .next t ∧ t.Legal)

/-- From an `st` that is no code of the mode, which R172 and I3 have a model refuse, ENC_EDGE is refused under the code,
and BTN_EDGE and READ_POS, which do not read `st` (R25, R125), complete. That the refusal stands in ENC_EDGE's step and
not in the type of `st` is the model's choice (log entry 12). -/
def Obligations.IllegalStateCodeIsRefused : Prop :=
  ∀ s : State, ¬ s.Legal →
    (∀ p, exec (.enc p) s = .refused (.illegalStateCode s.st)) ∧
    (∀ l, ∃ t, exec (.btn l) s = .next t) ∧ ∃ t, exec .read s = .next t

/-- R84: the class of every full-step cell, from the gray-code sequences alone. In the sub-state of direction `d` at
code `c`: the same code holds; the next code of the sequence is forward, with the event at the final 00; the previous
code backs off without an event; both bits changed goes to START without an event. START starts a sequence of either
direction and holds otherwise. -/
def Obligations.FullStepCellClasses : Prop :=
  (∀ (s : State) (d : Dir) (c p : PinSample), s.build.mode = .full → c ≠ 0b00 → s.st = (d.state c).code →
    ∃ t, exec (.enc p) s = .next t ∧
      (p = c → t.st = s.st ∧ t.ret = .event .none) ∧
      (p = d.succ c → t.st = (d.state p).code ∧ t.ret = .event (if p = 0b00 then d.event else .none)) ∧
      (d.succ p = c → t.st = (d.state p).code ∧ t.ret = .event .none) ∧
      (doubleJump c p → t.st = FullState.start.code ∧ t.ret = .event .none)) ∧
  (∀ (s : State) (p : PinSample), s.build.mode = .full → s.st = FullState.start.code →
    ∃ t, exec (.enc p) s = .next t ∧ t.ret = .event .none ∧
      (p = 0b00 → t.st = s.st) ∧ (p = 0b01 → t.st = (Dir.cw.state p).code) ∧
      (p = 0b10 → t.st = (Dir.ccw.state p).code) ∧ (doubleJump 0b00 p → t.st = s.st))

/-- R87 (cell classes): in the sub-state of a leg the same code holds, the code of the rest state it makes for is
forward and emits, and every other sample goes back to the rest state it left without an event. From a rest state
its own code holds, and the first code of a direction enters that direction's leg, each without an event. -/
def Obligations.HalfStepCellClasses : Prop :=
  ∀ (s : State) (g : HalfLeg) (p : PinSample), g ∈ halfLegs → s.build.mode = .half →
    (s.st = g.sub.code → ∃ t, exec (.enc p) s = .next t ∧
      (p = halfPins g.sub → t.st = s.st ∧ t.ret = .event .none) ∧
      (p = halfPins g.target → t.st = g.target.code ∧ t.ret = .event g.dir.event) ∧
      (p ≠ halfPins g.sub → p ≠ halfPins g.target → t.st = g.origin.code ∧ t.ret = .event .none)) ∧
    (s.st = g.origin.code → ∃ t, exec (.enc p) s = .next t ∧ t.ret = .event .none ∧
      (p = halfPins g.origin → t.st = s.st) ∧
      (p = g.dir.succ (halfPins g.origin) → t.st = g.sub.code) ∧
      (doubleJump (halfPins g.origin) p → t.st = g.target.code))

/-- R85: in full-step mode every double jump goes to START and emits no event; 11 in START stays in START. -/
def Obligations.FullStepDoubleJumpGoesToStart : Prop :=
  ∀ (s : State) (q : FullState) (p : PinSample), s.build.mode = .full → s.st = q.code →
    doubleJump (fullPins q) p →
      ∃ t, exec (.enc p) s = .next t ∧ t.st = FullState.start.code ∧ t.ret = .event .none ∧ t.pos = s.pos ∧
        t.diag = s.diag

/-- R97: double jumps never emit; where each goes in both modes. -/
def Obligations.DoubleJumpNeverEmits : Prop :=
  (∀ (s : State) (q : FullState) (p : PinSample), s.build.mode = .full → s.st = q.code →
    doubleJump (fullPins q) p →
      ∃ t, exec (.enc p) s = .next t ∧ t.ret = .event .none ∧ t.pos = s.pos ∧ t.st = FullState.start.code) ∧
  (∀ (s : State) (q : HalfState) (p : PinSample), s.build.mode = .half → s.st = q.code →
    doubleJump (halfPins q) p →
      ∃ t, exec (.enc p) s = .next t ∧ t.ret = .event .none ∧ t.pos = s.pos ∧
        t.st = (match q with
          | .start => HalfState.startM.code
          | .ccwBegin => HalfState.start.code
          | .cwBegin => HalfState.start.code
          | .startM => HalfState.start.code
          | .cwBeginM => HalfState.startM.code
          | .ccwBeginM => HalfState.startM.code))

/-- R91: a sample equal to the pin code of the current state changes nothing and returns NONE; START in full-step
mode holds under 00 and 11. -/
def Obligations.HoldChangesNothing : Prop :=
  (∀ (s : State) (q : FullState) (p : PinSample), s.build.mode = .full → s.st = q.code →
    (p = fullPins q ∨ (q = .start ∧ p = 0b11)) →
      ∃ t, exec (.enc p) s = .next t ∧ t.st = s.st ∧ t.ret = .event .none ∧ t.pos = s.pos ∧ t.diag = s.diag) ∧
  (∀ (s : State) (q : HalfState) (p : PinSample), s.build.mode = .half → s.st = q.code → p = halfPins q →
      ∃ t, exec (.enc p) s = .next t ∧ t.st = s.st ∧ t.ret = .event .none ∧ t.pos = s.pos ∧ t.diag = s.diag)

/-- R92: a sub-state is entered exactly by its pin code from one of the predecessors the rule lists; START in
full-step mode by any sample, START in half-step mode by 00, 01 or 10, START_M by 01, 10 or 11. -/
def Obligations.SubStateEnteredByPinCode : Prop :=
  (∀ (s t : State) (q : FullState) (p : PinSample), s.build.mode = .full → exec (.enc p) s = .next t → q ≠ .start →
    (t.st = q.code ↔ p = fullPins q ∧ ∃ r ∈ fullPreds q, s.st = r.code)) ∧
  (∀ (s t : State) (q : HalfState) (p : PinSample), s.build.mode = .half → exec (.enc p) s = .next t →
    q ≠ .start → q ≠ .startM →
      (t.st = q.code ↔ p = halfPins q ∧ ∃ r ∈ halfPreds q, s.st = r.code)) ∧
  (∀ p : PinSample, ∃ r : FullState, ∀ s : State, s.build.mode = .full → s.st = r.code →
    ∃ t, exec (.enc p) s = .next t ∧ t.st = FullState.start.code) ∧
  (∀ p : PinSample, p ≠ 0b11 ↔ ∃ s t : State, s.build.mode = .half ∧ exec (.enc p) s = .next t ∧
    t.st = HalfState.start.code) ∧
  (∀ p : PinSample, p ≠ 0b00 ↔ ∃ s t : State, s.build.mode = .half ∧ exec (.enc p) s = .next t ∧
    t.st = HalfState.startM.code)

/-- R93: the cells that emit, and no others. -/
def Obligations.EventCells : Prop :=
  (∀ (s t : State) (p : PinSample), s.build.mode = .full → exec (.enc p) s = .next t →
    (t.ret = .event .cw ↔ s.st = FullState.cwFinal.code ∧ p = 0b00) ∧
    (t.ret = .event .ccw ↔ s.st = FullState.ccwFinal.code ∧ p = 0b00)) ∧
  (∀ (s t : State) (p : PinSample), s.build.mode = .half → exec (.enc p) s = .next t →
    (t.ret = .event .cw ↔
      (s.st = HalfState.cwBegin.code ∧ p = 0b11) ∨ (s.st = HalfState.cwBeginM.code ∧ p = 0b00)) ∧
    (t.ret = .event .ccw ↔
      (s.st = HalfState.ccwBegin.code ∧ p = 0b11) ∨ (s.st = HalfState.ccwBeginM.code ∧ p = 0b00)))

/-- R94: a sample that is not the next code of the sequence in progress emits nothing. Full-step, in the sub-state of
direction `d` at code `c`: a hold stays; a back-off goes to `d`'s state at the code before, the preceding sub-state or,
from the first one, START; a double jump goes to START. Half-step: a hold stays, every other sample goes to START or
START_M. (In a rest state no sequence is in progress: a sample that begins none is meant.) -/
def Obligations.IllegalTransitionEmitsNothing : Prop :=
  (∀ (s : State) (d : Dir) (c p : PinSample), s.build.mode = .full → c ≠ 0b00 → s.st = (d.state c).code →
    p ≠ d.succ c →
      ∃ t, exec (.enc p) s = .next t ∧ t.ret = .event .none ∧ t.pos = s.pos ∧
        ((p = c ∧ t.st = s.st) ∨ (d.succ p = c ∧ t.st = (d.state p).code) ∨
          (doubleJump c p ∧ t.st = FullState.start.code))) ∧
  (∀ (s : State) (p : PinSample), s.build.mode = .full → s.st = FullState.start.code → p ≠ 0b01 → p ≠ 0b10 →
    ∃ t, exec (.enc p) s = .next t ∧ t.ret = .event .none ∧ t.pos = s.pos ∧ t.st = FullState.start.code) ∧
  (∀ (s : State) (g : HalfLeg) (p : PinSample), g ∈ halfLegs → s.build.mode = .half → s.st = g.sub.code →
    p ≠ halfPins g.target →
      ∃ t, exec (.enc p) s = .next t ∧ t.ret = .event .none ∧ t.pos = s.pos ∧
        ((p = halfPins g.sub ∧ t.st = s.st) ∨
          (p ≠ halfPins g.sub ∧ (t.st = HalfState.start.code ∨ t.st = HalfState.startM.code)))) ∧
  (∀ (s : State) (q : HalfState) (p : PinSample), s.build.mode = .half → q = .start ∨ q = .startM →
    s.st = q.code → p ≠ 0b01 → p ≠ 0b10 →
      ∃ t, exec (.enc p) s = .next t ∧ t.ret = .event .none ∧ t.pos = s.pos ∧
        ((p = halfPins q ∧ t.st = s.st) ∨
          (p ≠ halfPins q ∧ (t.st = HalfState.start.code ∨ t.st = HalfState.startM.code))))

/-- R122, in a build of any width `w`: the counter after a step is the wrapped exact sum, as bits the sum modulo `2^w`;
a CW step at the greatest position gives the least and a CCW step at the least gives the greatest. With `w = 32` those
are the bits `0x7FFF_FFFF` and `0x8000_0000`. -/
def Obligations.PositionWraps : Prop :=
  ∀ (s t : State) (p : PinSample), exec (.enc p) s = .next t →
    (t.ret = .event .cw →
      t.pos = wrap s.posWidth (s.pos + 1) ∧ posBits s.posWidth t.pos = posBits s.posWidth s.pos + 1 ∧
      (s.pos = 2 ^ (s.posWidth - 1) - 1 → t.pos = -2 ^ (s.posWidth - 1)) ∧
      (s.posWidth = 32 → s.pos = 2147483647 →
        t.pos = -2147483648 ∧ posBits 32 s.pos = 0x7FFFFFFF ∧ posBits 32 t.pos = 0x80000000)) ∧
    (t.ret = .event .ccw →
      t.pos = wrap s.posWidth (s.pos - 1) ∧ posBits s.posWidth t.pos = posBits s.posWidth s.pos - 1 ∧
      (s.pos = -2 ^ (s.posWidth - 1) → t.pos = 2 ^ (s.posWidth - 1) - 1) ∧
      (s.posWidth = 32 → s.pos = -2147483648 →
        t.pos = 2147483647 ∧ posBits 32 s.pos = 0x80000000 ∧ posBits 32 t.pos = 0x7FFFFFFF)) ∧
    (t.ret = .event .none → t.pos = s.pos)

/-- R28, R66: ENC_EDGE returns exactly one StepEvent and shows its code on `step_event`; BTN_EDGE, READ_POS and RESET
return none; and the event is not read: the next operation does the same whatever was returned and shown. -/
def Obligations.StepEventReturnedAndShown : Prop :=
  (∀ (s t : State) (p : PinSample), exec (.enc p) s = .next t →
    (t.ret = .event .none ∧ t.stepEvent = 0b00) ∨ (t.ret = .event .cw ∧ t.stepEvent = 0b01) ∨
      (t.ret = .event .ccw ∧ t.stepEvent = 0b10)) ∧
  (∀ (s t : State) (l : Level), exec (.btn l) s = .next t → ∀ ev, t.ret ≠ .event ev) ∧
  (∀ s t : State, exec .read s = .next t → ∀ ev, t.ret ≠ .event ev) ∧
  (∀ s t : State, runOperation .reset s = .next t → ∀ ev, t.ret ≠ .event ev) ∧
  (∀ (s t : State) (r : Returned) (e : BitVec 2) (o : Operation), runOperation o s = .next t →
    ∃ u, runOperation o { s with ret := r, stepEvent := e } = .next u ∧
      u.st = t.st ∧ u.pos = t.pos ∧ u.ret = t.ret ∧ u.diag = t.diag ∧ u.index = t.index)

/-! ## BTN_EDGE and READ_POS -/

/-- R124, R131: with level 0 the position becomes 0 and the record is made; with level 1 nothing but the pulses of
the cycle before goes. Both complete in every state; the equalities are also the frames. -/
def Obligations.BtnEdgeRuns : Prop :=
  ∀ s : State,
    exec (.btn 0) s = .next { s with
      pos := 0
      index := s.index + 1
      diag := s.diag ++ (if s.build.observability = true then [.reset] else [])
      stepEvent := 0b00
      diagStep := none
      diagRstValid := s.build.observability
      ret := .nothing } ∧
    exec (.btn 1) s = .next { s with
      index := s.index + 1
      stepEvent := 0b00
      diagStep := none
      diagRstValid := false
      ret := .nothing }

/-- R130, R46, R47: READ_POS completes in every state, returns `pos`, and changes nothing else but the trace index; a
second read returns the same value. -/
def Obligations.ReadPosRuns : Prop :=
  ∀ s : State,
    exec .read s = .next { s with ret := .position s.pos, index := s.index + 1 } ∧
    returns [.read, .read] s = [.position s.pos, .position s.pos]

/-- R125: BTN_EDGE neither reads nor writes `st`, and a sequence in progress at a press completes after it, its event
applied to the zeroed counter. -/
def Obligations.BtnEdgeIgnoresDecoderState : Prop :=
  (∀ (s : State) (l : Level) (c : Byte),
    ∃ t, exec (.btn l) s = .next t ∧ t.st = s.st ∧ exec (.btn l) { s with st := c } = .next { t with st := c }) ∧
  (∀ (s t : State) (p : PinSample) (ev : StepEvent), exec (.enc p) s = .next t → t.ret = .event ev →
    ∃ u, execAll [.btn 0, .enc p] s = .next u ∧ u.ret = .event ev ∧ u.st = t.st ∧ u.pos = posAfter s.posWidth ev 0)

/-- R127: two presses with no ENC_EDGE between them leave the position 0 after each, and in an observability build
each makes its record. -/
def Obligations.SecondPressIsNoOp : Prop :=
  ∀ (s : State) (mid : List Instr), (∀ i ∈ mid, ∀ p, i ≠ .enc p) →
    ∃ a b t, exec (.btn 0) s = .next a ∧ execAll mid a = .next b ∧ exec (.btn 0) b = .next t ∧
      a.pos = 0 ∧ b.pos = 0 ∧ t.pos = 0 ∧ t.st = s.st ∧
      (s.build.observability = true → a.diag = s.diag ++ [.reset] ∧ t.diag = b.diag ++ [.reset])

/-- R25, R23: `st` is hidden: whatever sequence of BTN_EDGE and READ_POS runs, what it returns and leaves is the same
from two states that differ in `st` only. -/
def Obligations.StIsHiddenFromButtonAndReader : Prop :=
  ∀ (s : State) (c : Byte) (is : List Instr), (∀ i ∈ is, ∀ p, i ≠ .enc p) →
    returns is { s with st := c } = returns is s ∧
    ∃ t, execAll is s = .next t ∧ t.st = s.st ∧ execAll is { s with st := c } = .next { t with st := c }

/-! ## The counter, the records and the index over all operations -/

/-- R123: across any single operation the position stays, changes by exactly one modulo `2^POS_WIDTH`, or becomes 0,
and which of the three the rule says for each; the CW event is the `+1` and the CCW event the `-1`. -/
def Obligations.CounterInvariant : Prop :=
  (∀ (s t : State) (p : PinSample), exec (.enc p) s = .next t →
    (t.ret = .event .none → t.pos = s.pos) ∧
    (t.ret = .event .cw → t.pos = wrap s.posWidth (s.pos + 1)) ∧
    (t.ret = .event .ccw → t.pos = wrap s.posWidth (s.pos - 1))) ∧
  (∀ s t : State, exec (.btn 1) s = .next t → t.pos = s.pos) ∧
  (∀ s t : State, exec .read s = .next t → t.pos = s.pos) ∧
  (∀ s t : State, exec (.btn 0) s = .next t → t.pos = 0) ∧
  (∀ s t : State, runOperation .reset s = .next t → t.pos = 0)

/-- R131: which operation emits which record, in order; without observability nothing is emitted; RESET emits
nothing. (That RESET leaves the stream empty is R35.) -/
def Obligations.DiagnosticRecords : Prop :=
  (∀ (i : Instr) (s t : State), exec i s = .next t →
    t.diag = s.diag ++ (if s.build.observability = true then
      (match i, t.ret with
        | .enc _, .event .cw => [.cw t.pos]
        | .enc _, .event .ccw => [.ccw t.pos]
        | .btn l, _ => if l = 0 then [.reset] else []
        | _, _ => [])
      else [])) ∧
  (∀ s t : State, runOperation .reset s = .next t → t.diag = [])

/-- R30: each operation advances the trace index by one, and a step whose delivery is a word takes exactly that one
stimulus off the trace. -/
def Obligations.IndexAdvancesByOne : Prop :=
  (∀ (i : Instr) (s t : State), exec i s = .next t → t.index = s.index + 1 ∧ t.pending = s.pending) ∧
  (∀ (s t : State) (w : Byte) (rest : List Delivery), s.pending = .word w :: rest → step s = .next t →
    t.index = s.index + 1 ∧ t.pending = rest)

/-! ## Invariants and whole-machine rules of the step -/

/-- The invariant holds after reset, in every build (R35). -/
def Obligations.ResetMeetsInvariant : Prop :=
  (∀ b : Build, (State.resetFor b).Inv) ∧ State.reset.Inv

/-- R22, R26, R31, R33, R66, R132: every step keeps the invariant, whatever is delivered. -/
def Obligations.StepKeepsInvariant : Prop :=
  ∀ s t : State, s.Inv → step s = .next t → t.Inv

/-- R80, R7: no step changes the parameters of the build. -/
def Obligations.BuildNeverChanges : Prop :=
  ∀ s t : State, step s = .next t → t.build = s.build

/-- R90, R150, R185: in a legal state every step completes, whatever is delivered but a RESERVED word. -/
def Obligations.LegalStateAlwaysSteps : Prop :=
  ∀ s : State, s.Legal → (∀ d ∈ s.pending.head?, d.notReserved = true) → ∃ t, step s = .next t ∧ t.Legal

/-- R23: only ENC_EDGE and RESET write `st`. -/
def Obligations.OnlyEncAndResetWriteSt : Prop :=
  ∀ s t : State, step s = .next t → t.st ≠ s.st →
    ∃ d rest, s.pending = d :: rest ∧ (d.holdsEnc = true ∨ d.holdsReset = true)

/-- R27: only ENC_EDGE, a pressed BTN_EDGE and RESET write `pos`, and `pos` ends where the rule lets it: zero, or one
step from the position before or from zero (a pair in one cycle). -/
def Obligations.OnlyEncPressAndResetWritePos : Prop :=
  ∀ s t : State, step s = .next t → t.pos ≠ s.pos →
    (∃ d rest, s.pending = d :: rest ∧ (d.holdsEnc = true ∨ d.holdsPress = true ∨ d.holdsReset = true)) ∧
    (t.pos = 0 ∨ t.pos = wrap s.posWidth (s.pos + 1) ∨ t.pos = wrap s.posWidth (s.pos - 1) ∨
      t.pos = wrap s.posWidth 1 ∨ t.pos = wrap s.posWidth (-1))

/-! ## Sequences of samples -/

/-- R99: one clean cycle from START returns two events in half-step mode, at 11 and at the final 00, and one event in
full-step mode, at the final 00, in either direction. -/
def Obligations.HalfStepDoublesResolution : Prop :=
  ∀ (s : State) (d : Dir), s.st = 0x00 →
    (s.build.mode = .half →
      returns (samples d.cycle) s = [.event .none, .event d.event, .event .none, .event d.event] ∧
      ∃ t, execAll (samples d.cycle) s = .next t ∧ t.st = 0x00 ∧
        t.pos = posAfter s.posWidth d.event (posAfter s.posWidth d.event s.pos)) ∧
    (s.build.mode = .full →
      returns (samples d.cycle) s = [.event .none, .event .none, .event .none, .event d.event] ∧
      ∃ t, execAll (samples d.cycle) s = .next t ∧ t.st = 0x00 ∧ t.pos = posAfter s.posWidth d.event s.pos)

/-- R100: in half-step mode a bounce off a rest code and straight back emits no event and returns to the rest state. -/
def Obligations.HalfStepRestBounce : Prop :=
  ∀ (s : State) (p : PinSample), s.build.mode = .half → p = 0b01 ∨ p = 0b10 →
    (s.st = HalfState.startM.code →
      returns (samples [p, 0b11]) s = [.event .none, .event .none] ∧
      ∃ t, execAll (samples [p, 0b11]) s = .next t ∧ t.st = s.st ∧ t.pos = s.pos) ∧
    (s.st = HalfState.start.code →
      returns (samples [p, 0b00]) s = [.event .none, .event .none] ∧
      ∃ t, execAll (samples [p, 0b00]) s = .next t ∧ t.st = s.st ∧ t.pos = s.pos)

/-- R96: in full-step mode the decoder may oscillate any number of times between two adjacent codes `c` and
`d.succ c` of a direction's cycle (00 among them) without an event, without a change of position, and without leaving
those two states; a forward completion afterwards (the codes of the cycle after `c`) emits exactly one event, at its
end. -/
def Obligations.BounceKeepsProgress : Prop :=
  ∀ (s : State) (d : Dir) (c : PinSample) (ps : List PinSample),
    s.build.mode = .full → d.succ c ≠ 0b00 →
    s.st = (d.state c).code ∨ s.st = (d.state (d.succ c)).code →
    (∀ p ∈ ps, p = c ∨ p = d.succ c) →
      returns (samples ps) s = List.replicate ps.length (.event .none) ∧
      ∃ t, execAll (samples ps) s = .next t ∧ t.pos = s.pos ∧ t.diag = s.diag ∧
        (t.st = (d.state c).code ∨ t.st = (d.state (d.succ c)).code) ∧
        ∀ rest, (∃ done, d.cycle = done ++ rest ∧ rest.head? = some (d.succ c)) →
          returns (samples rest) t = List.replicate (rest.length - 1) (.event .none) ++ [.event d.event] ∧
          ∃ u, execAll (samples rest) t = .next u ∧ u.st = FullState.start.code ∧
            u.pos = posAfter s.posWidth d.event s.pos

/-- R95: an event needs the ordered sequence. Full-step: take a run of ENC_EDGEs that leaves START with its first
sample and is never in START before its last (`m` is the state before the last sample `p`). If the last returns the
event of direction `d`, the run began with `d`'s first code, was only ever in `d`'s sub-states, moved only between
equal or adjacent codes of `d`'s cycle, ended from `d`'s last sub-state at 00 in START, and holds `d`'s four codes in
order. Half-step: the run left the leg's rest state into its sub-state, held there, and ended at the code of the rest
state it makes for. -/
def Obligations.EventNeedsOrderedSequence : Prop :=
  (∀ (s m u : State) (d : Dir) (ps : List PinSample) (p : PinSample),
    s.build.mode = .full → s.st = FullState.start.code →
    execAll (samples ps) s = .next m → (∀ t ∈ trail (samples ps) s, t.st ≠ FullState.start.code) →
    exec (.enc p) m = .next u → u.ret = .event d.event →
      ps.head? = some (d.succ 0b00) ∧
      (∀ t ∈ trail (samples ps) s, ∃ c, c ≠ 0b00 ∧ t.st = (d.state c).code) ∧
      List.IsChain (fun a b => b ≠ 0b00 ∧ (b = a ∨ b = d.succ a ∨ d.succ b = a)) ps ∧
      m.st = (d.state (d.succ (d.succ (d.succ 0b00)))).code ∧ p = 0b00 ∧ u.st = FullState.start.code ∧
      d.cycle.Sublist (ps ++ [p])) ∧
  (∀ (s m u : State) (d : Dir) (q : HalfState) (ps : List PinSample) (p : PinSample),
    s.build.mode = .half → q = .start ∨ q = .startM → s.st = q.code →
    execAll (samples ps) s = .next m →
    (∀ t ∈ trail (samples ps) s, t.st ≠ HalfState.start.code ∧ t.st ≠ HalfState.startM.code) →
    exec (.enc p) m = .next u → u.ret = .event d.event →
      ∃ g ∈ halfLegs, g.origin = q ∧ g.dir = d ∧ ps ≠ [] ∧
        (∀ x ∈ ps, x = d.succ (halfPins q)) ∧ (∀ t ∈ trail (samples ps) s, t.st = g.sub.code) ∧
        p = halfPins g.target ∧ u.st = g.target.code)

/-- R128: from RESET in full-step mode, a trace of `n` clean CW cycles with presses placed between any of its stimuli,
split after its last press (`before` ends with it, or is empty where there is none). Run by the machine's own steps
over the words, it completes, and the final position is the number of CW events after the last press, which is `n`
minus the number of cycles whose final sample came before it. -/
def Obligations.ResetCountsLaterCycles : Prop :=
  ∀ (b : Build) (n : Nat) (before after : List Instr),
    b.mode = .full →
    (before ++ after).filter (fun i => i != .btn 0) = (List.replicate n Pseudo.cw.expand).flatten →
    before = [] ∨ before.getLast? = some (.btn 0) → Instr.btn 0 ∉ after →
      ∃ m t, execAll before (State.resetFor b) = .next m ∧
        Host.Core.run Sys2Proof.core (before ++ after).length
          { State.resetFor b with pending := deliveriesOf (before ++ after) } = .next t ∧
        t.pos = wrap b.posWidth ((returns after m).count (.event .cw)) ∧
        (returns after m).count (.event .cw) + before.count (.enc 0b00) = n

/-! ## Same-window pairs, order and the port level -/

/-- R50: a same-window pair (without a concurrent reader) becomes two operations in one order: the encoder edge first
under ENC_FIRST, the button edge first under BTN_FIRST, one of the two under ANY. Nothing is taken yet. -/
def Obligations.WindowOrder : Prop :=
  ∀ (s : State) (p : PinSample) (l : Level) (rest : List Delivery), s.pending = .window p l 0 :: rest →
    ∃ t, step s = .next t ∧ t.st = s.st ∧ t.pos = s.pos ∧ t.index = s.index ∧ t.diag = s.diag ∧
      (s.build.simulOrder = .encFirst → t.pending = deliveriesOf [.enc p, .btn l] ++ rest) ∧
      (s.build.simulOrder = .btnFirst → t.pending = deliveriesOf [.btn l, .enc p] ++ rest) ∧
      (t.pending = deliveriesOf [.enc p, .btn l] ++ rest ∨ t.pending = deliveriesOf [.btn l, .enc p] ++ rest)

/-- R180: after a same-window press and step the final position is 0 (step first) or one step from 0 (reset first),
and which is SIMUL_ORDER's to say. -/
def Obligations.SameWindowFinalPosition : Prop :=
  ∀ (s e : State) (p : PinSample) (ev : StepEvent) (rest : List Delivery),
    s.pending = .window p 0 0 :: rest → exec (.enc p) s = .next e → e.ret = .event ev →
      ∃ t, Host.Core.run Sys2Proof.core 3 s = .next t ∧ t.pending = rest ∧ t.st = e.st ∧
        (t.pos = 0 ∨ t.pos = posAfter s.posWidth ev 0) ∧
        (s.build.simulOrder = .encFirst → t.pos = 0) ∧
        (s.build.simulOrder = .btnFirst → t.pos = posAfter s.posWidth ev 0)

/-- R52: a reader concurrent with a same-window pair sees the position before both, after the first of an order
SIMUL_ORDER admits, or after both, and every one of the window's reads completes. -/
def Obligations.ConcurrentReaderSeesThreeValues : Prop :=
  ∀ (s : State) (p : PinSample) (l : Level) (n : Nat) (rest : List Delivery), s.Legal →
    s.pending = .window p l n :: rest →
      ∃ first second m u,
        ((first = .enc p ∧ second = .btn l ∧ s.build.simulOrder ≠ .btnFirst) ∨
          (first = .btn l ∧ second = .enc p ∧ s.build.simulOrder ≠ .encFirst)) ∧
        exec first s = .next m ∧ exec second m = .next u ∧
        (readValues (stepTrail (n + 3) s)).length = n ∧
        (∀ v ∈ readValues (stepTrail (n + 3) s), v = s.pos ∨ v = m.pos ∨ v = u.pos) ∧
        ∃ t, Host.Core.run Sys2Proof.core (n + 3) s = .next t ∧ t.pending = rest ∧ t.st = u.st ∧ t.pos = u.pos

/-- R51, with R45, R48, R49: linearisability. From a legal state, whatever words, RESETs, same-window pairs with
readers and port-level cycles are delivered, the machine takes them all, and its registers, its records, its index and
every value a read returns are those of the block's atomic operations taken one at a time in a single total order. That
order takes the deliveries in their delivered order and the operations of one delivery in an order R50 admits, so the
ENC_EDGEs keep their order and so do the BTN_EDGEs. -/
def Obligations.DeliveriesLinearise : Prop :=
  ∀ s : State, s.Legal → (∀ d ∈ s.pending, d.notReserved = true) →
    ∃ (k : Nat) (t : State) (orders : List (List Operation)),
      List.Forall₂ (Delivery.Admits s.build.simulOrder) s.pending orders ∧
      Host.Core.run Sys2Proof.core k s = .next t ∧ t.pending = [] ∧
      (operationTrail orders.flatten s).length = orders.flatten.length ∧
      readValues (stepTrail k s) = readValues (operationTrail orders.flatten s) ∧
      ∀ u ∈ (s :: operationTrail orders.flatten s).getLast?,
        t.st = u.st ∧ t.pos = u.pos ∧ t.diag = u.diag ∧ t.index = u.index

/-- R70, R183: a port-level cycle with one notification is that operation, to the last field, and so is the
operation's word. -/
def Obligations.CycleWithOneNotification : Prop :=
  ∀ (s : State) (c : PortIn) (rest : List Delivery), c.rst = false →
    (c.encValid = true → c.btnValid = false →
      step { s with pending := .cycle c :: rest } =
        step { s with pending := .word (encode (.enc c.encSample)) :: rest }) ∧
    (c.encValid = false → c.btnValid = true →
      step { s with pending := .cycle c :: rest } =
        step { s with pending := .word (encode (.btn c.btnLevel)) :: rest })

/-- R183, R132: a port-level cycle with both notifications, from a legal state. `e` is the state ENC_EDGE alone gives
and `ev` its event. Step first: `pos` goes by the step and then to 0 if the button is pressed. Reset first: the step
counts from 0 if the button is pressed. `step_event` shows the event in either order, `diag_step` repeats it with the
position right after the step in the order taken, and `diag_rst_valid` shows the press. SIMUL_ORDER picks the order. -/
def Obligations.CycleWithBothNotifications : Prop :=
  ∀ (s e : State) (c : PortIn) (ev : StepEvent) (rest : List Delivery),
    c.rst = false → c.encValid = true → c.btnValid = true → s.pending = .cycle c :: rest →
    exec (.enc c.encSample) s = .next e → e.ret = .event ev →
      ∃ (t : State) (encFirst : Bool) (q : Int),
        step s = .next t ∧
        (s.build.simulOrder = .encFirst → encFirst = true) ∧
        (s.build.simulOrder = .btnFirst → encFirst = false) ∧
        q = (if encFirst = false ∧ c.btnLevel = 0 then 0 else s.pos) ∧
        t.st = e.st ∧
        t.pos = (if encFirst = true ∧ c.btnLevel = 0 then 0 else posAfter s.posWidth ev q) ∧
        t.stepEvent = shownCode ev ∧
        t.diagStep = stepShown s.build.observability ev (posAfter s.posWidth ev q) ∧
        (t.diagRstValid = true ↔ c.btnLevel = 0 ∧ s.build.observability = true) ∧
        t.pending = rest ∧ t.build = s.build

/-- R33, I7: what the diagnostic ports show. Absent without observability; with it, the valid bit says whether the
other two show a step. `position` shows the `POS_WIDTH` bits of `pos`, its top bit the sign, and `step_event` its
register. -/
def Obligations.PortsShowTheRegisters : Prop :=
  ∀ s : State,
    s.positionPort = BitVec.ofInt s.posWidth s.pos ∧
    (fits s.posWidth s.pos → s.positionPort.toInt = s.pos ∧ (s.positionPort.getMsbD 0 = true ↔ s.pos < 0)) ∧
    s.stepEventPort = s.stepEvent ∧
    (s.build.observability = false →
      s.diagStepValidPort = none ∧ s.diagStepDirPort = none ∧ s.diagStepPosPort = none ∧
      s.diagRstValidPort = none) ∧
    (s.build.observability = true →
      s.diagRstValidPort = some (BitVec.ofBool s.diagRstValid) ∧
      (s.diagStep = none → s.diagStepValidPort = some 0) ∧
      (∀ d, s.diagStep = some d → s.diagStepValidPort = some 1 ∧ s.diagStepDirPort = some d.dir ∧
        s.diagStepPosPort = some (BitVec.ofInt s.posWidth d.pos)))

/-! ## The primitive of the counter -/

/-- R9: `wrap_N(i)` is the one integer from `-2^(N-1)` to `2^(N-1) - 1` that is congruent to `i` modulo `2^N`. -/
def Obligations.WrapIsTheUniqueResidue : Prop :=
  ∀ (n : Nat) (i j : Int), 0 < n →
    (wrap n i = j ↔ (-2 ^ (n - 1) ≤ j ∧ j < 2 ^ (n - 1)) ∧ j % 2 ^ n = i % 2 ^ n)
end

