-- ==== Sys2Proof/Laws/Memory.lean ====
section
/-! SUPPORT. The transition-table ROM: its canonical form, and the bytes it lists. -/

namespace Sys2Proof.Machine

theorem cellsFrom_all_ge (a : Nat) (bs : List Byte) : (cellsFrom a bs).all (fun d => decide (a ≤ d.1)) = true := by
  induction bs generalizing a with
  | nil => rfl
  | cons b bs ih =>
    simp only [cellsFrom, List.all_cons, Nat.le_refl, decide_true, Bool.true_and]
    have h := ih (a + 1)
    simp only [List.all_eq_true, decide_eq_true_eq] at h ⊢
    exact fun d hd => Nat.le_of_succ_le (h d hd)

/-- Laying bytes out from an address on gives a memory in canonical form. -/
theorem cellsFrom_wf (a : Nat) (bs : List Byte) : Memory.wf (cellsFrom a bs) = true := by
  induction bs generalizing a with
  | nil => rfl
  | cons b bs ih =>
    have h := cellsFrom_all_ge (a + 1) bs
    simp only [cellsFrom, Memory.wf, ih, Bool.and_true]
    exact h

/-- What is read from bytes laid out from an address on. -/
theorem cellsFrom_read (bs : List Byte) (a k : Nat) : Memory.read (cellsFrom a bs) (a + k) = bs[k]? := by
  induction bs generalizing a k with
  | nil => rfl
  | cons b bs ih =>
    cases k with
    | zero => simp [cellsFrom, Memory.read]
    | succ k =>
      have hne : a ≠ a + (k + 1) := by omega
      simp only [cellsFrom, Memory.read, if_neg hne, List.getElem?_cons_succ]
      rw [← ih (a + 1) k]
      congr 1
      omega

/-- The ROM holds the bytes of its table from offset 0 and nothing past them. -/
theorem rom_read (m : Mode) (a : Nat) : Memory.read (rom m) a = (romBytes m)[a]? := by
  simpa [rom] using cellsFrom_read (romBytes m) 0 a

end Sys2Proof.Machine
end

