-- ==== Sys2Proof/Laws/State.lean ====
section
/-! SUPPORT. One lemma per field for every update of the state, so that no later proof unfolds a record update. -/

namespace Sys2Proof.Machine

/-- The width of the counter is the build's: every operation that keeps the build keeps it. -/
@[simp] theorem State.posWidth_eq (s : State) : s.posWidth = s.build.posWidth := rfl

/-! ### `beginCycle` -/

@[simp] theorem beginCycle_st (s : State) :
    (beginCycle s).st = s.st := rfl
@[simp] theorem beginCycle_pos (s : State) :
    (beginCycle s).pos = s.pos := rfl
@[simp] theorem beginCycle_index (s : State) :
    (beginCycle s).index = s.index := rfl
@[simp] theorem beginCycle_diag (s : State) :
    (beginCycle s).diag = s.diag := rfl
@[simp] theorem beginCycle_stepEvent (s : State) :
    (beginCycle s).stepEvent = 0b00 := rfl
@[simp] theorem beginCycle_diagStep (s : State) :
    (beginCycle s).diagStep = none := rfl
@[simp] theorem beginCycle_diagRstValid (s : State) :
    (beginCycle s).diagRstValid = false := rfl
@[simp] theorem beginCycle_ret (s : State) :
    (beginCycle s).ret = .nothing := rfl
@[simp] theorem beginCycle_pending (s : State) :
    (beginCycle s).pending = s.pending := rfl
@[simp] theorem beginCycle_build (s : State) :
    (beginCycle s).build = s.build := rfl
@[simp] theorem beginCycle_ticks (s : State) :
    (beginCycle s).ticks = s.ticks := rfl

/-! ### `idle` -/

@[simp] theorem idle_st (s : State) :
    (idle s).st = s.st := rfl
@[simp] theorem idle_pos (s : State) :
    (idle s).pos = s.pos := rfl
@[simp] theorem idle_index (s : State) :
    (idle s).index = s.index := rfl
@[simp] theorem idle_diag (s : State) :
    (idle s).diag = s.diag := rfl
@[simp] theorem idle_stepEvent (s : State) :
    (idle s).stepEvent = 0b00 := rfl
@[simp] theorem idle_diagStep (s : State) :
    (idle s).diagStep = none := rfl
@[simp] theorem idle_diagRstValid (s : State) :
    (idle s).diagRstValid = false := rfl
@[simp] theorem idle_ret (s : State) :
    (idle s).ret = .nothing := rfl
@[simp] theorem idle_pending (s : State) :
    (idle s).pending = s.pending := rfl
@[simp] theorem idle_build (s : State) :
    (idle s).build = s.build := rfl
@[simp] theorem idle_ticks (s : State) :
    (idle s).ticks = s.ticks + 1 := rfl

/-! ### `popDelivery` -/

@[simp] theorem popDelivery_st (rest : List Delivery) (s : State) :
    (popDelivery rest s).st = s.st := rfl
@[simp] theorem popDelivery_pos (rest : List Delivery) (s : State) :
    (popDelivery rest s).pos = s.pos := rfl
@[simp] theorem popDelivery_index (rest : List Delivery) (s : State) :
    (popDelivery rest s).index = s.index := rfl
@[simp] theorem popDelivery_diag (rest : List Delivery) (s : State) :
    (popDelivery rest s).diag = s.diag := rfl
@[simp] theorem popDelivery_stepEvent (rest : List Delivery) (s : State) :
    (popDelivery rest s).stepEvent = s.stepEvent := rfl
@[simp] theorem popDelivery_diagStep (rest : List Delivery) (s : State) :
    (popDelivery rest s).diagStep = s.diagStep := rfl
@[simp] theorem popDelivery_diagRstValid (rest : List Delivery) (s : State) :
    (popDelivery rest s).diagRstValid = s.diagRstValid := rfl
@[simp] theorem popDelivery_ret (rest : List Delivery) (s : State) :
    (popDelivery rest s).ret = s.ret := rfl
@[simp] theorem popDelivery_pending (rest : List Delivery) (s : State) :
    (popDelivery rest s).pending = rest := rfl
@[simp] theorem popDelivery_build (rest : List Delivery) (s : State) :
    (popDelivery rest s).build = s.build := rfl
@[simp] theorem popDelivery_ticks (rest : List Delivery) (s : State) :
    (popDelivery rest s).ticks = s.ticks + 1 := rfl

/-! ### `arbitrate` -/

@[simp] theorem arbitrate_st (p : PinSample) (l : Level) (n : Nat) (s : State) :
    (arbitrate p l n s).st = s.st := rfl
@[simp] theorem arbitrate_pos (p : PinSample) (l : Level) (n : Nat) (s : State) :
    (arbitrate p l n s).pos = s.pos := rfl
@[simp] theorem arbitrate_index (p : PinSample) (l : Level) (n : Nat) (s : State) :
    (arbitrate p l n s).index = s.index := rfl
@[simp] theorem arbitrate_diag (p : PinSample) (l : Level) (n : Nat) (s : State) :
    (arbitrate p l n s).diag = s.diag := rfl
@[simp] theorem arbitrate_stepEvent (p : PinSample) (l : Level) (n : Nat) (s : State) :
    (arbitrate p l n s).stepEvent = s.stepEvent := rfl
@[simp] theorem arbitrate_diagStep (p : PinSample) (l : Level) (n : Nat) (s : State) :
    (arbitrate p l n s).diagStep = s.diagStep := rfl
@[simp] theorem arbitrate_diagRstValid (p : PinSample) (l : Level) (n : Nat) (s : State) :
    (arbitrate p l n s).diagRstValid = s.diagRstValid := rfl
@[simp] theorem arbitrate_ret (p : PinSample) (l : Level) (n : Nat) (s : State) :
    (arbitrate p l n s).ret = .nothing := rfl
@[simp] theorem arbitrate_pending (p : PinSample) (l : Level) (n : Nat) (s : State) :
    (arbitrate p l n s).pending = windowWords p l n s ++ s.pending := rfl
@[simp] theorem arbitrate_build (p : PinSample) (l : Level) (n : Nat) (s : State) :
    (arbitrate p l n s).build = s.build := rfl
@[simp] theorem arbitrate_ticks (p : PinSample) (l : Level) (n : Nat) (s : State) :
    (arbitrate p l n s).ticks = s.ticks := rfl

/-! ### `resetOp` -/

@[simp] theorem resetOp_st (s : State) :
    (resetOp s).st = 0x00 := rfl
@[simp] theorem resetOp_pos (s : State) :
    (resetOp s).pos = 0 := rfl
@[simp] theorem resetOp_index (s : State) :
    (resetOp s).index = 0 := rfl
@[simp] theorem resetOp_diag (s : State) :
    (resetOp s).diag = [] := rfl
@[simp] theorem resetOp_stepEvent (s : State) :
    (resetOp s).stepEvent = 0b00 := rfl
@[simp] theorem resetOp_diagStep (s : State) :
    (resetOp s).diagStep = none := rfl
@[simp] theorem resetOp_diagRstValid (s : State) :
    (resetOp s).diagRstValid = false := rfl
@[simp] theorem resetOp_ret (s : State) :
    (resetOp s).ret = .nothing := rfl
@[simp] theorem resetOp_pending (s : State) :
    (resetOp s).pending = s.pending := rfl
@[simp] theorem resetOp_build (s : State) :
    (resetOp s).build = s.build := rfl
@[simp] theorem resetOp_ticks (s : State) :
    (resetOp s).ticks = s.ticks := rfl

/-! ### `showStep` -/

@[simp] theorem showStep_st (ev : StepEvent) (s : State) :
    (showStep ev s).st = s.st := rfl
@[simp] theorem showStep_pos (ev : StepEvent) (s : State) :
    (showStep ev s).pos = s.pos := rfl
@[simp] theorem showStep_index (ev : StepEvent) (s : State) :
    (showStep ev s).index = s.index := rfl
@[simp] theorem showStep_diag (ev : StepEvent) (s : State) :
    (showStep ev s).diag = s.diag := rfl
@[simp] theorem showStep_stepEvent (ev : StepEvent) (s : State) :
    (showStep ev s).stepEvent = ev.code := rfl
@[simp] theorem showStep_diagStep (ev : StepEvent) (s : State) :
    (showStep ev s).diagStep = if ev ≠ .none ∧ s.build.observability then some { dir := ev.code, pos := s.pos } else s.diagStep := rfl
@[simp] theorem showStep_diagRstValid (ev : StepEvent) (s : State) :
    (showStep ev s).diagRstValid = s.diagRstValid := rfl
@[simp] theorem showStep_ret (ev : StepEvent) (s : State) :
    (showStep ev s).ret = s.ret := rfl
@[simp] theorem showStep_pending (ev : StepEvent) (s : State) :
    (showStep ev s).pending = s.pending := rfl
@[simp] theorem showStep_build (ev : StepEvent) (s : State) :
    (showStep ev s).build = s.build := rfl
@[simp] theorem showStep_ticks (ev : StepEvent) (s : State) :
    (showStep ev s).ticks = s.ticks := rfl

/-! ### `emit` -/

@[simp] theorem emit_st (r : DiagRecord) (s : State) :
    (emit r s).st = s.st := by
  unfold emit; split <;> rfl
@[simp] theorem emit_pos (r : DiagRecord) (s : State) :
    (emit r s).pos = s.pos := by
  unfold emit; split <;> rfl
@[simp] theorem emit_index (r : DiagRecord) (s : State) :
    (emit r s).index = s.index := by
  unfold emit; split <;> rfl
@[simp] theorem emit_diag (r : DiagRecord) (s : State) :
    (emit r s).diag = if s.build.observability then s.diag ++ [r] else s.diag := by
  unfold emit; split <;> rfl
@[simp] theorem emit_stepEvent (r : DiagRecord) (s : State) :
    (emit r s).stepEvent = s.stepEvent := by
  unfold emit; split <;> rfl
@[simp] theorem emit_diagStep (r : DiagRecord) (s : State) :
    (emit r s).diagStep = s.diagStep := by
  unfold emit; split <;> rfl
@[simp] theorem emit_diagRstValid (r : DiagRecord) (s : State) :
    (emit r s).diagRstValid = s.diagRstValid := by
  unfold emit; split <;> rfl
@[simp] theorem emit_ret (r : DiagRecord) (s : State) :
    (emit r s).ret = s.ret := by
  unfold emit; split <;> rfl
@[simp] theorem emit_pending (r : DiagRecord) (s : State) :
    (emit r s).pending = s.pending := by
  unfold emit; split <;> rfl
@[simp] theorem emit_build (r : DiagRecord) (s : State) :
    (emit r s).build = s.build := by
  unfold emit; split <;> rfl
@[simp] theorem emit_ticks (r : DiagRecord) (s : State) :
    (emit r s).ticks = s.ticks := by
  unfold emit; split <;> rfl

/-! ### `applyStep` -/

@[simp] theorem applyStep_st (ev : StepEvent) (s : State) :
    (applyStep ev s).st = s.st := by
  cases ev <;> simp [applyStep]
@[simp] theorem applyStep_index (ev : StepEvent) (s : State) :
    (applyStep ev s).index = s.index := by
  cases ev <;> simp [applyStep]
@[simp] theorem applyStep_stepEvent (ev : StepEvent) (s : State) :
    (applyStep ev s).stepEvent = s.stepEvent := by
  cases ev <;> simp [applyStep]
@[simp] theorem applyStep_diagStep (ev : StepEvent) (s : State) :
    (applyStep ev s).diagStep = s.diagStep := by
  cases ev <;> simp [applyStep]
@[simp] theorem applyStep_diagRstValid (ev : StepEvent) (s : State) :
    (applyStep ev s).diagRstValid = s.diagRstValid := by
  cases ev <;> simp [applyStep]
@[simp] theorem applyStep_ret (ev : StepEvent) (s : State) :
    (applyStep ev s).ret = s.ret := by
  cases ev <;> simp [applyStep]
@[simp] theorem applyStep_pending (ev : StepEvent) (s : State) :
    (applyStep ev s).pending = s.pending := by
  cases ev <;> simp [applyStep]
@[simp] theorem applyStep_build (ev : StepEvent) (s : State) :
    (applyStep ev s).build = s.build := by
  cases ev <;> simp [applyStep]
@[simp] theorem applyStep_ticks (ev : StepEvent) (s : State) :
    (applyStep ev s).ticks = s.ticks := by
  cases ev <;> simp [applyStep]

/-! ### `resetPos` -/

@[simp] theorem resetPos_st (s : State) :
    (resetPos s).st = s.st := by
  simp [resetPos]
@[simp] theorem resetPos_pos (s : State) :
    (resetPos s).pos = 0 := by
  simp [resetPos]
@[simp] theorem resetPos_index (s : State) :
    (resetPos s).index = s.index := by
  simp [resetPos]
@[simp] theorem resetPos_diag (s : State) :
    (resetPos s).diag = if s.build.observability then s.diag ++ [.reset] else s.diag := by
  simp [resetPos]
@[simp] theorem resetPos_stepEvent (s : State) :
    (resetPos s).stepEvent = s.stepEvent := by
  simp [resetPos]
@[simp] theorem resetPos_diagStep (s : State) :
    (resetPos s).diagStep = s.diagStep := by
  simp [resetPos]
@[simp] theorem resetPos_diagRstValid (s : State) :
    (resetPos s).diagRstValid = s.build.observability := by
  simp [resetPos]
@[simp] theorem resetPos_ret (s : State) :
    (resetPos s).ret = s.ret := by
  simp [resetPos]
@[simp] theorem resetPos_pending (s : State) :
    (resetPos s).pending = s.pending := by
  simp [resetPos]
@[simp] theorem resetPos_build (s : State) :
    (resetPos s).build = s.build := by
  simp [resetPos]
@[simp] theorem resetPos_ticks (s : State) :
    (resetPos s).ticks = s.ticks := by
  simp [resetPos]

/-! ### `takeBtn` -/

@[simp] theorem takeBtn_st (l : Level) (s : State) :
    (takeBtn l s).st = s.st := by
  cases h : pressed l <;> simp [takeBtn, h]
@[simp] theorem takeBtn_pos (l : Level) (s : State) :
    (takeBtn l s).pos = if pressed l then 0 else s.pos := by
  cases h : pressed l <;> simp [takeBtn, h]
@[simp] theorem takeBtn_index (l : Level) (s : State) :
    (takeBtn l s).index = s.index + 1 := by
  rfl
@[simp] theorem takeBtn_diag (l : Level) (s : State) :
    (takeBtn l s).diag = if pressed l && s.build.observability then s.diag ++ [.reset] else s.diag := by
  cases h : pressed l <;> simp [takeBtn, h]
@[simp] theorem takeBtn_stepEvent (l : Level) (s : State) :
    (takeBtn l s).stepEvent = s.stepEvent := by
  cases h : pressed l <;> simp [takeBtn, h]
@[simp] theorem takeBtn_diagStep (l : Level) (s : State) :
    (takeBtn l s).diagStep = s.diagStep := by
  cases h : pressed l <;> simp [takeBtn, h]
@[simp] theorem takeBtn_diagRstValid (l : Level) (s : State) :
    (takeBtn l s).diagRstValid = if pressed l then s.build.observability else s.diagRstValid := by
  cases h : pressed l <;> simp [takeBtn, h]
@[simp] theorem takeBtn_ret (l : Level) (s : State) :
    (takeBtn l s).ret = s.ret := by
  cases h : pressed l <;> simp [takeBtn, h]
@[simp] theorem takeBtn_pending (l : Level) (s : State) :
    (takeBtn l s).pending = s.pending := by
  cases h : pressed l <;> simp [takeBtn, h]
@[simp] theorem takeBtn_build (l : Level) (s : State) :
    (takeBtn l s).build = s.build := by
  cases h : pressed l <;> simp [takeBtn, h]
@[simp] theorem takeBtn_ticks (l : Level) (s : State) :
    (takeBtn l s).ticks = s.ticks := by
  cases h : pressed l <;> simp [takeBtn, h]

end Sys2Proof.Machine
end

