-- ==== Sys2Proof/Laws/Ops.lean ====
section
/-! SUPPORT. For each shared operation, what it can do, said once. -/

namespace Sys2Proof.Machine

/-! ### Counter arithmetic -/

@[simp] theorem addPos_one (w : Nat) (v : Int) : addPos w v 1 = wrap w (v + 1) := rfl

@[simp] theorem addPos_neg_one (w : Nat) (v : Int) : addPos w v (-1) = wrap w (v - 1) := rfl

/-- A wrapped value fits the counter. -/
theorem wrap_fits (w : Nat) (i : Int) : fits w (wrap w i) := by
  cases w with
  | zero => simp [wrap, fits, Int.bmod_one]
  | succ n =>
    have hn : 0 < 2 ^ (n + 1) := by positivity
    have lo := Int.le_bmod (x := i) hn
    have hi := Int.bmod_lt (x := i) hn
    simp only [wrap, fits, Nat.add_sub_cancel]
    rw [pow_succ] at lo hi ⊢
    push_cast at lo hi
    generalize (2 : Int) ^ n = k at lo hi ⊢
    omega

/-- A value that fits is its own wrapped value. -/
theorem wrap_eq_self {w : Nat} {v : Int} (hw : 0 < w) (h : fits w v) : wrap w v = v := by
  obtain ⟨n, rfl⟩ := Nat.exists_eq_succ_of_ne_zero hw.ne'
  simp only [fits, Nat.succ_eq_add_one, Nat.add_sub_cancel] at h
  rw [wrap, Int.bmod_eq_of_le] <;> rw [Nat.succ_eq_add_one, pow_succ] <;> push_cast <;>
    generalize (2 : Int) ^ n = k at h ⊢ <;> omega

@[simp] theorem wrap_zero (w : Nat) : wrap w 0 = 0 := by simp [wrap]

/-- A sum wrapped on the way is wrapped as a whole. -/
@[simp] theorem wrap_wrap_add (w : Nat) (i d : Int) : wrap w (wrap w i + d) = wrap w (i + d) := by
  simp [wrap, Int.bmod_add_bmod]

@[simp] theorem wrap_wrap_sub (w : Nat) (i d : Int) : wrap w (wrap w i - d) = wrap w (i - d) := by
  simp [wrap, Int.sub_eq_add_neg, Int.bmod_add_bmod]

/-- A counter of any width holds 0. -/
@[simp] theorem fits_zero (w : Nat) : fits w 0 := by
  have h := wrap_fits w 0
  rwa [wrap_zero] at h

/-- A counter that fits fits after a step event. -/
theorem posAfter_fits {w : Nat} {v : Int} (ev : StepEvent) (h : fits w v) : fits w (posAfter w ev v) := by
  cases ev
  · exact h
  · exact wrap_fits w _
  · exact wrap_fits w _

/-- Wrapping keeps the bits: only the value modulo `2^w` is seen in `w` bits (R122). -/
@[simp] theorem posBits_wrap (w : Nat) (i : Int) : posBits w (wrap w i) = posBits w i := by
  refine BitVec.eq_of_toInt_eq ?_
  simp [posBits, wrap]

/-- As bits, a step forward is the sum modulo `2^w` (R122). -/
theorem posBits_add_one (w : Nat) (v : Int) : posBits w (v + 1) = posBits w v + 1 := by
  simp [posBits, BitVec.ofInt_add]

/-- As bits, a step back is the difference modulo `2^w` (R122). -/
theorem posBits_sub_one (w : Nat) (v : Int) : posBits w (v - 1) = posBits w v - 1 := by
  rw [eq_sub_iff_add_eq, ← posBits_add_one, Int.sub_add_cancel]

/-! ### Codes of the modes -/

/-- No two full-step states share a code (R64). -/
@[simp] theorem FullState.code_inj {q r : FullState} : q.code = r.code ↔ q = r := by
  cases q <;> cases r <;> simp [FullState.code]

/-- No two half-step states share a code (R65). -/
@[simp] theorem HalfState.code_inj {q r : HalfState} : q.code = r.code ↔ q = r := by
  cases q <;> cases r <;> simp [HalfState.code]

/-- The legal codes of a full-step build are those of its seven states. -/
theorem legal_full_iff {st : Byte} : legalCode .full st = true ↔ ∃ q : FullState, st = q.code := by
  constructor
  · intro h
    have hlt : st.toNat < 7 := of_decide_eq_true h
    have key : ∀ b : Byte, b.toNat < 7 →
        b ∈ [FullState.start, .cwFinal, .cwBegin, .cwNext, .ccwBegin, .ccwFinal, .ccwNext].map FullState.code := by
      decide
    obtain ⟨q, -, hq⟩ := List.mem_map.mp (key st hlt)
    exact ⟨q, hq.symm⟩
  · rintro ⟨q, rfl⟩
    cases q <;> rfl

/-- The legal codes of a half-step build are those of its six states. -/
theorem legal_half_iff {st : Byte} : legalCode .half st = true ↔ ∃ q : HalfState, st = q.code := by
  constructor
  · intro h
    have hlt : st.toNat < 6 := of_decide_eq_true h
    have key : ∀ b : Byte, b.toNat < 6 →
        b ∈ [HalfState.start, .ccwBegin, .cwBegin, .startM, .cwBeginM, .ccwBeginM].map HalfState.code := by
      decide
    obtain ⟨q, -, hq⟩ := List.mem_map.mp (key st hlt)
    exact ⟨q, hq.symm⟩
  · rintro ⟨q, rfl⟩
    cases q <;> rfl

/-- A sample is one of four. -/
theorem sample_cases (p : PinSample) : p = 0b00 ∨ p = 0b01 ∨ p = 0b10 ∨ p = 0b11 := by
  revert p; decide

/-- A level is 0 or 1. -/
theorem level_cases (l : Level) : l = 0 ∨ l = 1 := by
  revert l; decide

/-! ### `process` -/

/-- What `process` reads in a row of `T_FULL`. -/
theorem process_full {s : State} {q : FullState} (hm : s.build.mode = .full) (hs : s.st = q.code) (p : PinSample) :
    process p s = .ok ({ s with st := (fullCell q p).1.code }, (fullCell q p).2) := by
  unfold process
  rw [hm, hs]
  obtain rfl | rfl | rfl | rfl := sample_cases p <;> cases q <;> rfl

/-- What `process` reads in a row of `T_HALF`. -/
theorem process_half {s : State} {q : HalfState} (hm : s.build.mode = .half) (hs : s.st = q.code) (p : PinSample) :
    process p s = .ok ({ s with st := (halfCell q p).1.code }, (halfCell q p).2) := by
  unfold process
  rw [hm, hs]
  obtain rfl | rfl | rfl | rfl := sample_cases p <;> cases q <;> rfl

/-- An `st` outside its mode's codes has no row. -/
theorem tableRead_none {m : Mode} {st : Byte} (h : legalCode m st = false) (p : PinSample) :
    tableRead m st p = none := by
  have hlt : stateCount m ≤ st.toNat := by simpa [legalCode] using h
  rw [tableRead, rom_read]
  refine List.getElem?_eq_none ?_
  cases m
  · have hlen : (romBytes .full).length = 28 := rfl
    simp only [stateCount] at hlt
    simp only [hlen, romOffset]; omega
  · have hlen : (romBytes .half).length = 24 := rfl
    simp only [stateCount] at hlt
    simp only [hlen, romOffset]; omega

/-- `process` from a legal state: a legal code and an event, nothing else touched. -/
theorem process_legal {s : State} (h : s.Legal) (p : PinSample) :
    ∃ c ev, legalCode s.build.mode c = true ∧ process p s = .ok ({ s with st := c }, ev) := by
  have h' : legalCode s.build.mode s.st = true := h
  cases hm : s.build.mode with
  | full =>
    rw [hm] at h'
    obtain ⟨q, hq⟩ := legal_full_iff.mp h'
    exact ⟨_, _, legal_full_iff.mpr ⟨_, rfl⟩, process_full hm hq p⟩
  | half =>
    rw [hm] at h'
    obtain ⟨q, hq⟩ := legal_half_iff.mp h'
    exact ⟨_, _, legal_half_iff.mpr ⟨_, rfl⟩, process_half hm hq p⟩

/-- `process` from an `st` outside its mode's codes is refused. -/
theorem process_illegal {s : State} (h : ¬ s.Legal) (p : PinSample) :
    process p s = .error (.illegalStateCode s.st) := by
  have h' : legalCode s.build.mode s.st = false := by simpa [State.Legal] using h
  simp [process, tableRead_none h' p]

/-! ### `takeEnc` -/

/-- The state after an ENC_EDGE was taken in a cycle under way, from the cell it read. -/
theorem takeEnc_eq {s : State} {p : PinSample} {c : Byte} {ev : StepEvent}
    (h : process p s = .ok ({ s with st := c }, ev)) :
    takeEnc p s = .next { s with
      st := c
      pos := posAfter s.posWidth ev s.pos
      index := s.index + 1
      diag := s.diag ++ stepRecords s.build.observability ev (posAfter s.posWidth ev s.pos)
      stepEvent := ev.code
      diagStep := (stepShown s.build.observability ev (posAfter s.posWidth ev s.pos)).or s.diagStep
      ret := .event ev } := by
  unfold takeEnc
  rw [h]
  cases ev <;> cases ho : s.build.observability <;>
    simp [showStep, applyStep, emit, posAfter, stepRecords, stepShown, StepEvent.code, ho]

/-- An ENC_EDGE that answers a next state read a cell of a legal state. -/
theorem takeEnc_cases {s t : State} {p : PinSample} (h : takeEnc p s = .next t) :
    s.Legal ∧ ∃ c ev, legalCode s.build.mode c = true ∧ process p s = .ok ({ s with st := c }, ev) ∧
      t = { s with
        st := c
        pos := posAfter s.posWidth ev s.pos
        index := s.index + 1
        diag := s.diag ++ stepRecords s.build.observability ev (posAfter s.posWidth ev s.pos)
        stepEvent := ev.code
        diagStep := (stepShown s.build.observability ev (posAfter s.posWidth ev s.pos)).or s.diagStep
        ret := .event ev } := by
  by_cases hl : s.Legal
  · obtain ⟨c, ev, hc, hp⟩ := process_legal hl p
    rw [takeEnc_eq hp] at h
    exact ⟨hl, c, ev, hc, hp, (Host.Outcome.next.inj h).symm⟩
  · rw [takeEnc, process_illegal hl] at h
    cases h

/-- An ENC_EDGE from a legal state is taken. -/
theorem takeEnc_legal {s : State} (h : s.Legal) (p : PinSample) :
    ∃ t, takeEnc p s = .next t ∧ t.Legal ∧ t.build = s.build := by
  obtain ⟨c, ev, hc, hp⟩ := process_legal h p
  exact ⟨_, takeEnc_eq hp, hc, rfl⟩

/-! ### The meanings -/

theorem process_beginCycle {s : State} {p : PinSample} {c : Byte} {ev : StepEvent}
    (h : process p s = .ok ({ s with st := c }, ev)) :
    process p (beginCycle s) = .ok ({ beginCycle s with st := c }, ev) := by
  simp only [process, beginCycle_st, beginCycle_build] at h ⊢
  split at h
  · cases h
  · split at h
    · cases h
    · cases h; simp_all

/-- ENC_EDGE, from the cell it reads. -/
theorem execEnc_eq {s : State} {p : PinSample} {c : Byte} {ev : StepEvent}
    (h : process p s = .ok ({ s with st := c }, ev)) : exec (.enc p) s = .next (encNext s c ev) := by
  change takeEnc p (beginCycle s) = _
  rw [takeEnc_eq (process_beginCycle h)]
  cases ev <;> cases ho : s.build.observability <;>
    simp [encNext, beginCycle, StepEvent.code, shownCode, stepShown, ho]

/-- An ENC_EDGE that answers a next state read a cell of a legal state. -/
theorem execEnc_cases {s t : State} {p : PinSample} (h : exec (.enc p) s = .next t) :
    s.Legal ∧ ∃ c ev, legalCode s.build.mode c = true ∧ process p s = .ok ({ s with st := c }, ev) ∧
      t = encNext s c ev := by
  have hl : s.Legal := (takeEnc_cases (s := beginCycle s) h).1
  obtain ⟨c, ev, hc, hp⟩ := process_legal hl p
  rw [execEnc_eq hp] at h
  exact ⟨hl, c, ev, hc, hp, (Host.Outcome.next.inj h).symm⟩

/-- BTN_EDGE is a cycle in which it alone is taken. -/
theorem execBtn_eq (l : Level) (s : State) : exec (.btn l) s = .next (takeBtn l (beginCycle s)) := rfl

/-- READ_POS. -/
theorem execRead_eq (s : State) :
    exec .read s = .next { s with ret := .position s.pos, index := s.index + 1 } := rfl

/-- An operation that answers a next state keeps the
build, the deliveries to come and the counter of the free values, keeps a legal state legal, and uses one stimulus. -/
theorem exec_keeps {i : Instr} {s t : State} (h : exec i s = .next t) :
    t.build = s.build ∧ t.pending = s.pending ∧ t.ticks = s.ticks ∧ t.index = s.index + 1 ∧
      (s.Legal → t.Legal) := by
  cases i with
  | enc p =>
    obtain ⟨-, c, ev, hc, -, rfl⟩ := execEnc_cases h
    exact ⟨rfl, rfl, rfl, rfl, fun _ => hc⟩
  | btn l =>
    have h' : Host.Outcome.next (takeBtn l (beginCycle s)) = Host.Outcome.next t := h
    obtain rfl := Host.Outcome.next.inj h'
    simp [State.Legal]
  | read =>
    rw [execRead_eq] at h
    obtain rfl := Host.Outcome.next.inj h
    exact ⟨rfl, rfl, rfl, rfl, id⟩

/-! ### Deliveries and the step -/

/-- What one step can do: nothing is delivered, or the first delivery is a word, a RESET, a same-window pair or a
port-level cycle. -/
theorem step_cases {s t : State} (h : step s = .next t) :
    (s.pending = [] ∧ t = idle s) ∨
    (∃ w rest i, s.pending = .word w :: rest ∧ decode w = .ok i ∧ exec i (popDelivery rest s) = .next t) ∨
    (∃ rest, s.pending = .reset :: rest ∧ t = resetOp (popDelivery rest s)) ∨
    (∃ p l n rest, s.pending = .window p l n :: rest ∧ t = arbitrate p l n (popDelivery rest s)) ∨
    (∃ c rest, s.pending = .cycle c :: rest ∧ c.rst = true ∧ t = resetOp (popDelivery rest s)) ∨
    (∃ c rest, s.pending = .cycle c :: rest ∧ c.rst = false ∧
      takeNotices (cycleNotices c (popDelivery rest s)) (beginCycle (popDelivery rest s)) = .next t) := by
  unfold step at h
  split at h
  · rename_i hp; exact .inl ⟨hp, (Host.Outcome.next.inj h).symm⟩
  · rename_i d rest hp
    cases d with
    | word w =>
      simp only [deliver, runWord] at h
      split at h
      · rename_i i hi; exact .inr (.inl ⟨w, rest, i, hp, hi, h⟩)
      · cases h
    | reset => exact .inr (.inr (.inl ⟨rest, hp, (Host.Outcome.next.inj h).symm⟩))
    | window p l n => exact .inr (.inr (.inr (.inl ⟨p, l, n, rest, hp, (Host.Outcome.next.inj h).symm⟩)))
    | cycle c =>
      simp only [deliver, portCycle] at h
      split at h
      · rename_i hr
        exact .inr (.inr (.inr (.inr (.inl ⟨c, rest, hp, hr, (Host.Outcome.next.inj h).symm⟩))))
      · rename_i hr
        exact .inr (.inr (.inr (.inr (.inr ⟨c, rest, hp, by simpa using hr, h⟩))))

/-- Notifications taken one after the other keep whatever each of them keeps. -/
theorem takeNotices_keeps {P : State → Prop}
    (hEnc : ∀ p s t, P s → takeEnc p s = .next t → P t) (hBtn : ∀ l s, P s → P (takeBtn l s))
    {ns : List Notice} {s t : State} (hs : P s) (h : takeNotices ns s = .next t) : P t := by
  induction ns generalizing s with
  | nil => exact Host.Outcome.next.inj h ▸ hs
  | cons n ns ih =>
    simp only [takeNotices] at h
    cases n with
    | enc p =>
      simp only [takeNotice] at h
      split at h
      · rename_i s' hs'; exact ih (hEnc p s s' hs hs') h
      · cases h
      · cases h
    | btn l => exact ih (hBtn l s hs) h

/-- The notifications of a cycle: at most one of each kind, a pair in the order of `SIMUL_ORDER`. -/
theorem cycleNotices_cases (c : PortIn) (s : State) :
    cycleNotices c s = [] ∨ cycleNotices c s = [.enc c.encSample] ∨ cycleNotices c s = [.btn c.btnLevel] ∨
    cycleNotices c s = [.enc c.encSample, .btn c.btnLevel] ∨
    cycleNotices c s = [.btn c.btnLevel, .enc c.encSample] := by
  unfold cycleNotices orderPair
  cases c.encValid <;> cases c.btnValid <;> cases encComesFirst s <;> simp

end Sys2Proof.Machine
end

