-- ==== Sys2Proof/Laws/PerInstr.lean ====
section
/-! SUPPORT. Laws of the instructions as syntax, one lemma per constructor. -/

namespace Sys2Proof.Laws

/-- The mask and the match of an instruction's row in the opcode table. -/
def opcodeRow : Instr → Byte × Byte
  | .enc _ => (0xFC, 0x40)
  | .btn _ => (0xFE, 0x80)
  | .read  => (0xFF, 0xC0)

/-- The instruction is well-formed, and its word lies in its row of the opcode table: the masked bits are the match. -/
def OpcodeRow.Statement (i : Instr) : Prop :=
  i.wellFormed = true ∧ encode i &&& (opcodeRow i).1 = (opcodeRow i).2

theorem OpcodeRow.enc (p : PinSample) : OpcodeRow.Statement (.enc p) := by
  have h : ∀ p : PinSample, (Instr.enc p).wellFormed = true ∧ encode (.enc p) &&& 0xFC = 0x40 := by decide
  exact h p

theorem OpcodeRow.btn (l : Level) : OpcodeRow.Statement (.btn l) := by
  have h : ∀ l : Level, (Instr.btn l).wellFormed = true ∧ encode (.btn l) &&& 0xFE = 0x80 := by decide
  exact h l

theorem OpcodeRow.read : OpcodeRow.Statement .read := ⟨rfl, rfl⟩

/-- The operand types admit exactly the operand values of R61 to R63: every instruction is well-formed. -/
theorem instr_wellFormed (i : Instr) : i.wellFormed = true := by
  cases i with
  | enc p => exact (OpcodeRow.enc p).1
  | btn l => exact (OpcodeRow.btn l).1
  | read => exact OpcodeRow.read.1

end Sys2Proof.Laws
end

