-- ==== Sys2Proof/Laws/Step.lean ====
section
/-! SUPPORT. Runs of the machine's steps, one step at a time. -/

namespace Sys2Proof.Machine

/-- A run whose first step answers a next state goes on from there. -/
theorem core_run_next {k : Nat} {s t : State} (h : step s = .next t) :
    Host.Core.run Sys2Proof.core (k + 1) s = Host.Core.run Sys2Proof.core k t := by
  have h' : Sys2Proof.core.step s = .next t := h
  simp only [Host.Core.run, h']

/-- A run that completes took a first step. -/
theorem core_run_inv {k : Nat} {s u : State} (h : Host.Core.run Sys2Proof.core (k + 1) s = .next u) :
    ∃ t, step s = .next t ∧ Host.Core.run Sys2Proof.core k t = .next u := by
  cases hs : step s with
  | next t => exact ⟨t, rfl, (core_run_next hs).symm.trans h⟩
  | fault f => cases f
  | refused r =>
    have h' : Sys2Proof.core.step s = .refused r := hs
    simp only [Host.Core.run, h'] at h
    cases h

/-- The states of a run after a first step. -/
theorem stepTrail_next {k : Nat} {s t : State} (h : step s = .next t) :
    stepTrail (k + 1) s = t :: stepTrail k t := by
  simp only [stepTrail, h]

/-- A run of operations after its first. -/
theorem execAll_next {i : Instr} {is : List Instr} {s t : State} (h : exec i s = .next t) :
    execAll (i :: is) s = execAll is t := by
  simp only [execAll, h]

/-- The states of a run of operations after its first. -/
theorem trail_next {i : Instr} {is : List Instr} {s t : State} (h : exec i s = .next t) :
    trail (i :: is) s = t :: trail is t := by
  simp only [trail, h]

/-- A run of operations that completes took its first. -/
theorem execAll_inv {i : Instr} {is : List Instr} {s u : State} (h : execAll (i :: is) s = .next u) :
    ∃ t, exec i s = .next t ∧ execAll is t = .next u := by
  simp only [execAll] at h
  split at h
  · exact ⟨_, ‹_›, h⟩
  · cases h
  · cases h

end Sys2Proof.Machine
end

