-- ==== Sys2Proof/Tests/Slice0.lean ====
section
/-! SUPPORT. The model's own tests. Expected values are those of 95_test_vectors.md and the opcode table; the
witnesses show that the hypotheses of each obligation can be met together. -/

namespace Sys2Proof.Tests

open Sys2Proof Sys2Proof.Machine

/-- A small state: a build with observability, a code and a position. -/
def testState (m : Mode) (st : Byte) (pos : Int) : State :=
  { State.resetFor { mode := m, posWidth := 32, observability := true, simulOrder := .any } with st := st, pos := pos }

/-- The same with an order of same-window pairs and a delivery to come. -/
def testDelivery (o : SimulOrder) (d : Delivery) (st : Byte) (pos : Int) : State :=
  { State.resetFor { mode := .full, posWidth := 32, observability := true, simulOrder := o } with
    st := st, pos := pos, pending := [d] }

/-- A field of a next state, none where the outcome is no next state. -/
def field {α : Type} (f : State → α) (o : Host.Outcome State Fault Refusal) : Option α :=
  match o with
  | .next s => some (f s)
  | _ => none

/-- The refusal of an outcome. -/
def refusalOf (o : Host.Outcome State Fault Refusal) : Option Refusal :=
  match o with
  | .refused r => some r
  | _ => none

/-! ## WellFormed: one ill-formed term for each check -/

theorem test_wellFormed_op : (StimFields.mk 0b00 0 0).wellFormed = false := by decide
theorem test_wellFormed_rsv : (StimFields.mk 0b01 0b0001 0).wellFormed = false := by decide
theorem test_wellFormed_btn : (StimFields.mk 0b10 0 0b10).wellFormed = false := by decide
theorem test_wellFormed_read : (StimFields.mk 0b11 0 0b01).wellFormed = false := by decide
theorem test_wellFormed_accepts : (StimFields.mk 0b10 0 0b01).wellFormed = true := by decide

/-! ## Decoding: words written out from R61 to R63 and the table's `words` -/

theorem test_decode_enc : decode 0b01000010 = .ok (.enc 0b10) := by decide
theorem test_decode_btn : decode 0b10000001 = .ok (.btn 1) := by decide
theorem test_decode_read : decode 0b11000000 = .ok .read := by decide
theorem test_table_enc : decodeTableWord 8 0x41 = some (.enc 0b01) := by decide
theorem test_table_btn : decodeTableWord 8 0x80 = some (.btn 0) := by decide
theorem test_table_read : decodeTableWord 8 0xC0 = some .read := by decide
theorem test_table_reserved : decodeTableWord 8 0x44 = none := by decide

/-! ## Operations: 95_test_vectors.md -/

/-- ENC-F-05. -/
theorem test_enc_full : field (fun t => (t.st, t.pos, t.ret)) (exec (.enc 0b00) (testState .full 1 4)) =
    some (0, 5, .event .cw) := by decide

/-- ENC-H-08, with the record of R131. -/
theorem test_enc_half : field (fun t => (t.st, t.pos, t.diag)) (exec (.enc 0b11) (testState .half 1 0)) =
    some (3, -1, [.ccw (-1)]) := by decide

/-- BTN-3: a reset of a zero counter still emits its record. -/
theorem test_btn_press : field (fun t => (t.pos, t.diag)) (exec (.btn 0) (testState .full 0 0)) =
    some (0, [.reset]) := by decide

/-- BTN-2. -/
theorem test_btn_release : field (fun t => (t.pos, t.diag)) (exec (.btn 1) (testState .full 0 5)) =
    some (5, []) := by decide

/-- READ-2. -/
theorem test_read : field (fun t => (t.pos, t.ret)) (exec .read (testState .full 0 42)) =
    some (42, .position 42) := by decide

/-- POS-1. -/
theorem test_wrap : field State.pos (exec (.enc 0b00) (testState .full 1 0x7FFFFFFF)) = some (-0x80000000) :=
  by decide

/-- R26, I8: a build of another width wraps at its own end. -/
theorem test_wrap_narrow : field State.pos (exec (.enc 0b00)
    { testState .full 5 (-8) with build := { mode := .full, posWidth := 4, observability := false, simulOrder := .any } }) =
      some 7 := by decide

/-- DEC-7: a RESERVED word is refused. -/
theorem test_reserved : refusalOf (step (State.reset.withFetchWord 8 0x44)) =
    some (.reservedWord 0x44 .rsvNonzero) := by decide

/-- Each row of the table runs as the first stimulus after reset. -/
theorem test_first_enc : field State.st (step (State.reset.withFetchWord 8 0x41)) = some 2 := by decide
theorem test_first_btn : field State.pos (step (State.reset.withFetchWord 8 0x80)) = some 0 := by decide
theorem test_first_read : field State.ret (step (State.reset.withFetchWord 8 0xC0)) = some (.position 0) := by decide

/-- RST-2: an ENC_EDGE in a reset cycle is discarded. -/
theorem test_reset_cycle :
    field (fun t => (t.st, t.pos)) (step (testDelivery .any (.cycle ⟨true, true, 0b10, false, 0⟩) 3 3)) =
      some (0, 0) := by decide

/-- SW-1 and SW-2: a step and a press in one cycle. -/
theorem test_pair_encFirst :
    field (fun t => (t.st, t.pos, t.stepEvent, t.diagStep, t.diagRstValid))
        (step (testDelivery .encFirst (.cycle ⟨false, true, 0b00, true, 0⟩) 1 4)) =
      some (0, 0, 0b01, some ⟨0b01, 5⟩, true) := by decide
theorem test_pair_btnFirst :
    field (fun t => (t.st, t.pos, t.stepEvent, t.diagStep, t.diagRstValid))
        (step (testDelivery .btnFirst (.cycle ⟨false, true, 0b00, true, 0⟩) 1 4)) =
      some (0, 1, 0b01, some ⟨0b01, 1⟩, true) := by decide

/-- R71: a line with a binary sample and a comment. -/
theorem test_parse : parseLine "  enc 0b10 ; B high".toList = some [.enc 0b10] := by decide

/-! ## Witnesses: states and operands that meet the hypotheses of each obligation -/

theorem witness_DecodeEncodeAgree :
    (Instr.enc 3).wellFormed = true ∧ decode 0x81 = .ok (.btn 1) ∧ (fieldsOf 0xC0).wellFormed = true := by decide

theorem witness_SevenWordsDecode :
    (0x00 : Byte) ∉ [0x40#8, 0x41#8, 0x42#8, 0x43#8, 0x80#8, 0x81#8, 0xC0#8] ∧
    (0x44 : Byte) ∉ [0x40#8, 0x41#8, 0x42#8, 0x43#8, 0x80#8, 0x81#8, 0xC0#8] := by decide

theorem witness_EntryFieldsAreBitRanges :
    (0x03#8).extractLsb' 4 2 = 0b00 ∧ (0x13#8).extractLsb' 4 2 = 0b01 ∧ (0x23#8).extractLsb' 4 2 = 0b10 := by decide

theorem witness_TableReadsStayInRange :
    legalCode .full 6 = true ∧ legalCode .half 5 = true ∧ legalCode .full 0 = true := by decide

theorem witness_ResetOperationRuns : ∃ s : State, s.pending = .reset :: [.word 0x40] :=
  ⟨{ State.reset with pending := [.reset, .word 0x40] }, rfl⟩

theorem witness_ResetCycleDiscardsNotifications :
    ∃ (s : State) (c : PortIn), c.rst = true ∧ c.encValid = true ∧ c.btnValid = true ∧ s.pending = .cycle c :: [] :=
  ⟨testDelivery .any (.cycle ⟨true, true, 0b10, true, 0⟩) 3 3, _, rfl, rfl, rfl, rfl⟩

/-- A RESET by the operation and by a cycle that presents a sample, in both modes. -/
theorem witness_FirstSampleAfterReset :
    ∃ (s s' : State) (d d' : Delivery), d.holdsReset = true ∧ d'.holdsReset = true ∧
      s.pending = d :: .word (encode (.enc 0b11)) :: [] ∧ s'.pending = d' :: .word (encode (.enc 0b10)) :: [] ∧
      s.build.mode = .half ∧ s'.build.mode = .full :=
  ⟨{ testState .half 4 2 with pending := [.reset, .word 0x43] },
   { testState .full 3 2 with pending := [.cycle ⟨true, true, 0b01, true, 0⟩, .word 0x42] },
   .reset, .cycle ⟨true, true, 0b01, true, 0⟩, by decide⟩

theorem witness_StepRunsDecodedInstruction :
    ∃ (s : State) (w : Byte) (i : Instr), s.pending = .word w :: [] ∧ decode w = .ok i ∧
      decodeTableWord 8 0xC0 = some .read :=
  ⟨testDelivery .any (.word 0x42) 0 0, 0x42, .enc 0b10, rfl, by decide, by decide⟩

theorem witness_ReservedWordIsRefused :
    ∃ (s : State) (w : Byte), s.pending = .word w :: [] ∧
      w ∉ [0x40#8, 0x41#8, 0x42#8, 0x43#8, 0x80#8, 0x81#8, 0xC0#8] :=
  ⟨testDelivery .any (.word 0xC1) 0 0, 0xC1, rfl, by decide⟩

theorem witness_PulsesLastOneCycle :
    ∃ c : PortIn, c.rst = false ∧ c.encValid = false ∧ c.btnValid = false :=
  ⟨⟨false, false, 0, false, 0⟩, rfl, rfl, rfl⟩

/-- Also of FullStepDoubleJumpGoesToStart and of the first clauses of DoubleJumpNeverEmits and HoldChangesNothing: the
sample 11 in START is a double jump, and it holds. -/
theorem witness_FullStepEncEdge :
    ∃ (s : State) (q : FullState) (p : PinSample), s.build.mode = .full ∧ s.st = q.code ∧ q = .start ∧ p = 0b11 ∧
      doubleJump (fullPins q) p :=
  ⟨testState .full 0 0, .start, 0b11, rfl, rfl, rfl, rfl, by decide⟩

theorem witness_FullStepEncEdge_last :
    ∃ (s : State) (q : FullState) (p : PinSample), s.build.mode = .full ∧ s.st = q.code ∧ q = .ccwNext ∧
      p = fullPins q :=
  ⟨testState .full 6 0, .ccwNext, 0b11, rfl, rfl, rfl, rfl⟩

/-- Also of the second clauses of DoubleJumpNeverEmits and HoldChangesNothing. -/
theorem witness_HalfStepEncEdge :
    ∃ (s : State) (q : HalfState) (p p' : PinSample), s.build.mode = .half ∧ s.st = q.code ∧ q = .ccwBeginM ∧
      doubleJump (halfPins q) p ∧ p' = halfPins q :=
  ⟨testState .half 5 0, .ccwBeginM, 0b10, 0b01, rfl, rfl, rfl, by decide, rfl⟩

/-- Clauses of StHoldsLegalCode, in both modes, and of LegalStateAlwaysSteps without and with a delivery. -/
theorem witness_StHoldsLegalCode :
    (∃ t, (testState .full 6 0).Legal ∧ exec (.enc 3) (testState .full 6 0) = .next t) ∧
    (∃ t, (testState .half 5 0).Legal ∧ exec (.enc 3) (testState .half 5 0) = .next t) ∧
    (testDelivery .any (.window 0 0 3) 6 0).Legal ∧
    ∀ d ∈ (testDelivery .any (.window 0 0 3) 6 0).pending.head?, d.notReserved = true :=
  ⟨⟨_, rfl, rfl⟩, ⟨_, rfl, rfl⟩, rfl, by decide⟩

theorem witness_IllegalStateCodeIsRefused :
    ¬ (testState .full 7 0).Legal ∧ ¬ (testState .half 6 0).Legal ∧ ¬ (testState .half 0xFF 0).Legal := by decide

/-- Each class of FullStepCellClasses, and the first clause of IllegalTransitionEmitsNothing by its back-off. -/
theorem witness_FullStepCellClasses :
    (testState .full 1 0).st = (Dir.cw.state 0b10).code ∧ (0b10 : PinSample) ≠ 0b00 ∧
    Dir.cw.succ 0b10 = 0b00 ∧ Dir.cw.succ 0b11 = 0b10 ∧ doubleJump 0b10 0b01 ∧ (0b11 : PinSample) ≠ Dir.cw.succ 0b10 ∧
    (testState .full 0 0).st = FullState.start.code := by decide

/-- Each clause of HalfStepCellClasses and the half-step clauses of IllegalTransitionEmitsNothing. -/
theorem witness_HalfStepCellClasses :
    ∃ g ∈ halfLegs, (testState .half 4 0).st = g.sub.code ∧ (testState .half 3 0).st = g.origin.code ∧
      (0b01 : PinSample) ≠ halfPins g.sub ∧ (0b01 : PinSample) ≠ halfPins g.target ∧
      doubleJump (halfPins g.origin) 0b00 :=
  ⟨{ origin := .startM, sub := .cwBeginM, target := .start, dir := .cw }, by decide⟩

/-- A hold, a back-off to START and a double jump in full-step mode; a hold and another sample in a half-step leg; and
the rest states. -/
theorem witness_IllegalTransitionEmitsNothing :
    (testState .full 2 0).st = (Dir.cw.state 0b01).code ∧ (0b01 : PinSample) ≠ Dir.cw.succ 0b01 ∧
    (0b00 : PinSample) ≠ Dir.cw.succ 0b01 ∧ Dir.cw.succ 0b00 = 0b01 ∧
    (0b10 : PinSample) ≠ Dir.cw.succ 0b01 ∧ doubleJump 0b01 0b10 ∧
    (∃ g ∈ halfLegs, (testState .half 4 0).st = g.sub.code ∧ halfPins g.sub ≠ halfPins g.target ∧
      (0b11 : PinSample) ≠ halfPins g.target ∧ (0b11 : PinSample) ≠ halfPins g.sub) ∧
    (testState .full 0 0).st = FullState.start.code ∧ (0b11 : PinSample) ≠ 0b01 ∧ (0b11 : PinSample) ≠ 0b10 ∧
    (testState .half 3 0).st = HalfState.startM.code ∧ (testState .half 0 0).st = HalfState.start.code := by decide

/-- Clauses of SubStateEnteredByPinCode: a sub-state is entered, in each mode. -/
theorem witness_SubStateEnteredByPinCode :
    (∃ t, exec (.enc 0b11) (testState .full 1 0) = .next t ∧ t.st = FullState.cwNext.code ∧
      FullState.cwNext ≠ .start) ∧
    (∃ t, exec (.enc 0b10) (testState .half 3 0) = .next t ∧ t.st = HalfState.cwBeginM.code ∧
      HalfState.cwBeginM ≠ .start ∧ HalfState.cwBeginM ≠ .startM) :=
  ⟨⟨_, rfl, by decide⟩, ⟨_, rfl, by decide⟩⟩

/-- The events of EventCells in each mode. -/
theorem witness_EventCells :
    (∃ t, exec (.enc 0b00) (testState .full 5 0) = .next t ∧ t.ret = .event .ccw) ∧
    (∃ t, exec (.enc 0b11) (testState .half 2 0) = .next t ∧ t.ret = .event .cw) ∧
    (∃ t, exec (.enc 0b00) (testState .half 5 0) = .next t ∧ t.ret = .event .ccw) :=
  ⟨⟨_, rfl, by decide⟩, ⟨_, rfl, by decide⟩, ⟨_, rfl, by decide⟩⟩

/-- The clauses of PositionWraps at the ends of the range, with 32 bits; also of CounterInvariant, DiagnosticRecords,
IndexAdvancesByOne and StepEventReturnedAndShown. -/
theorem witness_PositionWraps :
    (∃ t, exec (.enc 0b00) (testState .full 1 2147483647) = .next t ∧ t.ret = .event .cw) ∧
    (∃ t, exec (.enc 0b00) (testState .full 5 (-2147483648)) = .next t ∧ t.ret = .event .ccw) ∧
    (∃ t, exec (.enc 0b00) (testState .full 0 (-2147483648)) = .next t ∧ t.ret = .event .none) ∧
    (testState .full 0 0).posWidth = 32 :=
  ⟨⟨_, rfl, by decide⟩, ⟨_, rfl, by decide⟩, ⟨_, rfl, by decide⟩, rfl⟩

/-- Both sides of WrapIsTheUniqueResidue, at the first integer past the range and at the least width. -/
theorem witness_WrapIsTheUniqueResidue :
    wrap 32 2147483648 = -2147483648 ∧ (-2 ^ (32 - 1) ≤ (-2147483648 : Int) ∧ (-2147483648 : Int) < 2 ^ (32 - 1)) ∧
      (-2147483648 : Int) % 2 ^ 32 = 2147483648 % 2 ^ 32 ∧ wrap 1 1 = -1 := by decide

theorem witness_CounterInvariant :
    (∃ t, exec (.btn 0) (testState .full 0 5) = .next t) ∧ (∃ t, exec (.btn 1) (testState .full 0 5) = .next t) ∧
    (∃ t, exec .read (testState .full 0 5) = .next t) ∧ ∃ t, runOperation .reset (testState .full 6 (-9)) = .next t :=
  ⟨⟨_, rfl⟩, ⟨_, rfl⟩, ⟨_, rfl⟩, ⟨_, rfl⟩⟩

theorem witness_IndexAdvancesByOne :
    ∃ t, (testDelivery .any (.word 0x41) 0 0).pending = .word 0x41 :: [] ∧
      step (testDelivery .any (.word 0x41) 0 0) = .next t :=
  ⟨_, rfl, rfl⟩

/-- BTN-4: a press in the middle of a sequence. -/
theorem witness_BtnEdgeIgnoresDecoderState :
    ∃ t, exec (.enc 0b00) (testState .full 1 7) = .next t ∧ t.ret = .event .cw :=
  ⟨_, rfl, by decide⟩

/-- Also of StIsHiddenFromButtonAndReader. -/
theorem witness_SecondPressIsNoOp : ∀ i ∈ [Instr.read, .btn 1, .btn 0], ∀ p, i ≠ .enc p := by
  intro i hi p
  fin_cases hi <;> exact Instr.noConfusion

/-- A state of the invariant with a diagnostic output shown, and its step. -/
theorem witness_StepKeepsInvariant :
    ∃ s t : State, s.Inv ∧ s.diagStep.isSome = true ∧ step s = .next t :=
  ⟨{ testDelivery .any (.word 0x80) 0 1 with stepEvent := 0b01, diagStep := some ⟨0b01, 1⟩ }, _,
    ⟨rfl, by decide, fun v h => by simp [testDelivery, State.resetFor] at h, fun d h => by cases h; decide,
      fun v h => (nomatch h), by decide, by decide, fun d h => by cases h; decide, fun d h _ => by cases h; rfl⟩, rfl, rfl⟩

theorem witness_BuildNeverChanges : ∃ t, step (testDelivery .any .reset 3 7) = .next t := ⟨_, rfl⟩

/-- Also of OnlyEncPressAndResetWritePos: one step that writes both registers. -/
theorem witness_OnlyEncAndResetWriteSt :
    ∃ t, step (testDelivery .any (.word 0x40) 1 4) = .next t ∧ t.st ≠ (testDelivery .any (.word 0x40) 1 4).st ∧
      t.pos ≠ (testDelivery .any (.word 0x40) 1 4).pos :=
  ⟨_, rfl, by decide, by decide⟩

theorem witness_HalfStepDoublesResolution :
    (testState .half 0 0).st = 0x00 ∧ (testState .half 0 0).build.mode = .half ∧
    (testState .full 0 0).st = 0x00 ∧ (testState .full 0 0).build.mode = .full := by decide

theorem witness_HalfStepRestBounce :
    (testState .half 3 0).build.mode = .half ∧ (testState .half 3 0).st = HalfState.startM.code ∧
    (testState .half 0 0).st = HalfState.start.code := by decide

/-- Oscillation between 11 and 10, and the rest of the cycle that completes it. -/
theorem witness_BounceKeepsProgress :
    (testState .full 3 0).build.mode = .full ∧ Dir.cw.succ 0b11 ≠ 0b00 ∧
    (testState .full 3 0).st = (Dir.cw.state 0b11).code ∧
    (∀ p ∈ [0b10#2, 0b11, 0b10], p = 0b11 ∨ p = Dir.cw.succ 0b11) ∧
    Dir.cw.cycle = [0b01, 0b11] ++ [0b10, 0b00] ∧ [0b10#2, 0b00].head? = some (Dir.cw.succ 0b11) := by decide

/-- A run with a bounce that ends in the event, in full-step mode. -/
theorem witness_EventNeedsOrderedSequence_full :
    ∃ m u, execAll (samples [0b01, 0b11, 0b01, 0b11, 0b10]) (testState .full 0 0) = .next m ∧
      (∀ t ∈ trail (samples [0b01, 0b11, 0b01, 0b11, 0b10]) (testState .full 0 0), t.st ≠ FullState.start.code) ∧
      exec (.enc 0b00) m = .next u ∧ u.ret = .event Dir.cw.event :=
  ⟨_, _, rfl, by decide, rfl, rfl⟩

/-- A run with a hold that ends in the event, from START_M in half-step mode. -/
theorem witness_EventNeedsOrderedSequence_half :
    ∃ m u, execAll (samples [0b01, 0b01]) (testState .half 3 0) = .next m ∧
      (∀ t ∈ trail (samples [0b01, 0b01]) (testState .half 3 0),
        t.st ≠ HalfState.start.code ∧ t.st ≠ HalfState.startM.code) ∧
      exec (.enc 0b00) m = .next u ∧ u.ret = .event Dir.ccw.event :=
  ⟨_, _, rfl, by decide, rfl, rfl⟩

/-- One cycle cut by a press, and one after it; and a trace without a press. -/
theorem witness_ResetCountsLaterCycles :
    (([.enc 1, .enc 3, .btn 0] ++ [.enc 2, .enc 0, .enc 1, .enc 3, .enc 2, .enc 0] : List Instr).filter
        (fun i => i != .btn 0) = (List.replicate 2 Pseudo.cw.expand).flatten) ∧
    ([.enc 1, .enc 3, .btn 0] : List Instr).getLast? = some (.btn 0) ∧
    Instr.btn 0 ∉ ([.enc 2, .enc 0, .enc 1, .enc 3, .enc 2, .enc 0] : List Instr) ∧
    (([] ++ Pseudo.cw.expand : List Instr).filter (fun i => i != .btn 0) =
      (List.replicate 1 Pseudo.cw.expand).flatten) := by decide

/-- Also of ConcurrentReaderSeesThreeValues, with two readers. -/
theorem witness_WindowOrder :
    (testDelivery .encFirst (.window 0 1 0) 1 4).pending = .window 0 1 0 :: [] ∧
    (testDelivery .btnFirst (.window 0 1 0) 1 4).build.simulOrder = .btnFirst ∧
    (testDelivery .any (.window 0 0 2) 1 4).Legal ∧
    (testDelivery .any (.window 0 0 2) 1 4).pending = .window 0 0 2 :: [] := by decide

theorem witness_SameWindowFinalPosition :
    ∃ e, (testDelivery .any (.window 0 0 0) 1 4).pending = .window 0 0 0 :: [] ∧
      exec (.enc 0) (testDelivery .any (.window 0 0 0) 1 4) = .next e ∧ e.ret = .event .cw :=
  ⟨_, rfl, rfl, by decide⟩

/-- A trace with every kind of delivery. -/
theorem witness_DeliveriesLinearise :
    ∃ s : State, s.Legal ∧ s.pending.length = 5 ∧ ∀ d ∈ s.pending, d.notReserved = true :=
  ⟨{ testState .full 1 4 with
      pending := [.word 0xC0, .window 0 0 2, .cycle ⟨false, true, 1, true, 0⟩, .reset, .cycle ⟨true, true, 1, false, 0⟩] },
    rfl, rfl, by decide⟩

theorem witness_CycleWithOneNotification :
    (∃ c : PortIn, c.rst = false ∧ c.encValid = true ∧ c.btnValid = false) ∧
    ∃ c : PortIn, c.rst = false ∧ c.encValid = false ∧ c.btnValid = true :=
  ⟨⟨⟨false, true, 0, false, 0⟩, rfl, rfl, rfl⟩, ⟨⟨false, false, 0, true, 0⟩, rfl, rfl, rfl⟩⟩

theorem witness_CycleWithBothNotifications :
    ∃ (c : PortIn) (e : State), c.rst = false ∧ c.encValid = true ∧ c.btnValid = true ∧ c.btnLevel = 0 ∧
      (testDelivery .any (.cycle c) 1 4).pending = .cycle c :: [] ∧
      exec (.enc c.encSample) (testDelivery .any (.cycle c) 1 4) = .next e ∧ e.ret = .event .cw :=
  ⟨⟨false, true, 0b00, true, 0⟩, _, rfl, rfl, rfl, rfl, rfl, rfl, by decide⟩

theorem witness_PortsShowTheRegisters :
    (testState .full 0 0).build.observability = true ∧ State.reset.build.observability = false ∧
    (testState .full 0 0).diagStep = none ∧ fits (testState .full 0 (-1)).posWidth (testState .full 0 (-1)).pos ∧
    ∃ s : State, s.build.observability = true ∧ s.diagStep = some ⟨0b01, 1⟩ :=
  ⟨rfl, rfl, rfl, by decide, { testState .full 0 1 with diagStep := some ⟨0b01, 1⟩ }, rfl, rfl⟩

end Sys2Proof.Tests
end

section
/-! PROOF. `wrap_N` is the residue of R9: congruent to its argument, and decided by it modulo `2^N`. -/

namespace Sys2Proof.Machine

/-- Wrapping keeps the residue modulo `2^w`. -/
@[simp] theorem wrap_emod_two_pow (w : Nat) (i : Int) : wrap w i % 2 ^ w = i % 2 ^ w := by
  have h : i.bmod (2 ^ w) % ((2 ^ w : Nat) : Int) = i % ((2 ^ w : Nat) : Int) := Int.bmod_emod
  simpa only [wrap, Nat.cast_pow, Nat.cast_ofNat] using h

/-- Only the residue modulo `2^w` decides the wrapped value. -/
@[simp] theorem wrap_emod (w : Nat) (i : Int) : wrap w (i % 2 ^ w) = wrap w i := by
  have h : (i % ((2 ^ w : Nat) : Int)).bmod (2 ^ w) = i.bmod (2 ^ w) := Int.emod_bmod i (2 ^ w)
  simpa only [wrap, Nat.cast_pow, Nat.cast_ofNat] using h

/-- Two integers wrap alike exactly when they are congruent modulo `2^w`. -/
theorem wrap_eq_wrap_iff (w : Nat) (i j : Int) : wrap w i = wrap w j ↔ i % 2 ^ w = j % 2 ^ w := by
  constructor <;> intro h
  · rw [← wrap_emod_two_pow w i, h, wrap_emod_two_pow]
  · rw [← wrap_emod w i, h, wrap_emod]

/-- Settles O56: a wrapped value fits and is congruent to its argument; a value that fits is its own wrapped value,
and so that of every integer congruent to it. -/
theorem wrapIsTheUniqueResidue : Obligations.WrapIsTheUniqueResidue := by
  unfold Obligations.WrapIsTheUniqueResidue
  intro n i j hn
  constructor
  · rintro rfl
    exact ⟨wrap_fits n i, wrap_emod_two_pow n i⟩
  · rintro ⟨hfits, hcongr⟩
    calc wrap n i = wrap n j := (wrap_eq_wrap_iff n i j).2 hcongr.symm
      _ = j := wrap_eq_self hn hfits

end Sys2Proof.Machine
end

section
/-! PROOF. The state (10_state.md): the rules shared by the statements below. What the notifications of a cycle can do
and which of them a cycle holds, what a delivered word runs, and what each operation does to `st` and `pos`. -/

namespace Sys2Proof.Machine

/-! ### The notifications of a cycle -/

/-- A list of notifications that is taken whole: its first is taken, and then the others from there. -/
theorem takeNotices_cons_eq_next {n : Notice} {ns : List Notice} {s t : State} :
    takeNotices (n :: ns) s = .next t ↔ ∃ m, takeNotice n s = .next m ∧ takeNotices ns m = .next t := by
  cases h : takeNotice n s <;> simp [takeNotices, h]

@[simp] theorem takeNotices_nil (s : State) : takeNotices [] s = .next s := rfl

@[simp] theorem takeNotices_enc (p : PinSample) (s : State) : takeNotices [.enc p] s = takeEnc p s := by
  cases h : takeEnc p s <;> simp [takeNotices, takeNotice, h]

@[simp] theorem takeNotices_btn_cons (l : Level) (ns : List Notice) (s : State) :
    takeNotices (.btn l :: ns) s = takeNotices ns (takeBtn l s) := rfl

/-- What each notification of a list keeps, the list keeps. -/
theorem takeNotices_keeps_of_mem {P : State → Prop} {ns : List Notice} {s t : State}
    (hkeep : ∀ n ∈ ns, ∀ a b, P a → takeNotice n a = .next b → P b) (hs : P s) (h : takeNotices ns s = .next t) :
    P t := by
  induction ns generalizing s with
  | nil => exact Host.Outcome.next.inj h ▸ hs
  | cons n ns ih =>
    obtain ⟨m, hn, hns⟩ := takeNotices_cons_eq_next.1 h
    exact ih (fun n' hn' => hkeep n' (List.mem_cons_of_mem n hn')) (hkeep n List.mem_cons_self s m hs hn) hns

/-- A cycle holds an encoder edge exactly when `enc_valid = 1`, and its sample is `enc_sample` (R33). -/
theorem enc_mem_cycleNotices {c : PortIn} {s : State} {p : PinSample} :
    .enc p ∈ cycleNotices c s ↔ c.encValid = true ∧ p = c.encSample := by
  unfold cycleNotices orderPair
  cases c.encValid <;> cases c.btnValid <;> cases encComesFirst s <;> simp

/-- A cycle holds a button edge exactly when `btn_valid = 1`, and its level is `btn_level` (R33). -/
theorem btn_mem_cycleNotices {c : PortIn} {s : State} {l : Level} :
    .btn l ∈ cycleNotices c s ↔ c.btnValid = true ∧ l = c.btnLevel := by
  unfold cycleNotices orderPair
  cases c.encValid <;> cases c.btnValid <;> cases encComesFirst s <;> simp

/-! ### A delivered word -/

/-- A step whose next delivery is a word that decodes runs the instruction. -/
theorem step_word {s : State} {w : Byte} {rest : List Delivery} {i : Instr} (hp : s.pending = .word w :: rest)
    (hw : decode w = .ok i) : step s = exec i (popDelivery rest s) := by
  simp only [step, hp, deliver, runWord, hw]

/-- A step over a word that answers a next state ran the instruction the word decodes to. -/
theorem step_word_inv {s t : State} {w : Byte} {rest : List Delivery} (hp : s.pending = .word w :: rest)
    (h : step s = .next t) : ∃ i, decode w = .ok i ∧ exec i (popDelivery rest s) = .next t := by
  cases hw : decode w with
  | ok i => exact ⟨i, rfl, step_word hp hw ▸ h⟩
  | error why => simp [step, hp, deliver, runWord, hw] at h

/-- A word that decodes is the encoding of its instruction. -/
theorem encode_of_decode {w : Byte} {i : Instr} (h : decode w = .ok i) : encode i = w := by
  have key : ∀ w : Byte, (decode w).toOption.all (fun i => encode i == w) = true := by decide
  simpa [h, Except.toOption] using key w

/-- The words of ENC_EDGE hold an encoder edge. -/
theorem holdsEnc_of_decode {w : Byte} {p : PinSample} (h : decode w = .ok (.enc p)) :
    (Delivery.word w).holdsEnc = true := by
  rw [← encode_of_decode h]
  obtain rfl | rfl | rfl | rfl := sample_cases p <;> rfl

/-- The word of a pressed BTN_EDGE holds a press. -/
theorem holdsPress_of_decode {w : Byte} {l : Level} (h : decode w = .ok (.btn l)) (hl : pressed l = true) :
    (Delivery.word w).holdsPress = true := by
  rw [← encode_of_decode h, beq_iff_eq.1 hl]
  rfl

/-! ### The two registers under the operations -/

/-- An operation that moves `st` is an ENC_EDGE (R23). -/
theorem exec_st {i : Instr} {s t : State} (h : exec i s = .next t) : t.st = s.st ∨ ∃ p, i = .enc p := by
  cases i with
  | enc p => exact .inr ⟨p, rfl⟩
  | btn l => obtain rfl := Host.Outcome.next.inj h; simp
  | read => obtain rfl := Host.Outcome.next.inj h; exact .inl rfl

/-- An operation that moves `pos` is an ENC_EDGE or a press (R27). -/
theorem exec_pos {i : Instr} {s t : State} (h : exec i s = .next t) :
    t.pos = s.pos ∨ (∃ p, i = .enc p) ∨ ∃ l, i = .btn l ∧ pressed l = true := by
  cases i with
  | enc p => exact .inr (.inl ⟨p, rfl⟩)
  | btn l =>
    obtain rfl := Host.Outcome.next.inj h
    cases hl : pressed l
    · simp [hl]
    · exact .inr (.inr ⟨l, rfl, hl⟩)
  | read => obtain rfl := Host.Outcome.next.inj h; exact .inl rfl

/-- A BTN_EDGE leaves `pos` as it was or 0 (R124). -/
theorem takeBtn_pos_cases (l : Level) (s : State) : (takeBtn l s).pos = s.pos ∨ (takeBtn l s).pos = 0 := by
  rw [takeBtn_pos]
  split
  · exact .inr rfl
  · exact .inl rfl

/-- An ENC_EDGE moves `pos` by its event, in the build it finds (R121). -/
theorem takeEnc_pos {s t : State} {p : PinSample} (h : takeEnc p s = .next t) :
    ∃ ev, t.pos = posAfter s.build.posWidth ev s.pos := by
  obtain ⟨-, c, ev, -, -, rfl⟩ := takeEnc_cases h
  exact ⟨ev, rfl⟩

end Sys2Proof.Machine
end

section
/-! PROOF. The invariant holds after reset, and every step keeps it. -/

namespace Sys2Proof.Machine

/-! ### What a step event records and shows -/

/-- A build without observability records no step event. -/
@[simp] theorem stepRecords_false (ev : StepEvent) (q : Int) : stepRecords false ev q = [] := by
  cases ev <;> rfl

/-- A build without observability shows no step event. -/
@[simp] theorem stepShown_false (ev : StepEvent) (q : Int) : stepShown false ev q = none := by
  cases ev <;> rfl

/-- A step event records no position but the one it leaves. -/
theorem mem_stepRecords {obs : Bool} {ev : StepEvent} {q v : Int}
    (h : .cw v ∈ stepRecords obs ev q ∨ .ccw v ∈ stepRecords obs ev q) : v = q := by
  cases obs with
  | false => simp at h
  | true =>
    cases ev with
    | none => simp [stepRecords] at h
    | cw | ccw => simpa [stepRecords] using h

/-- What is shown of a step event is its code, which is not `00`, and the position it leaves (R132). -/
theorem stepShown_eq_some {obs : Bool} {ev : StepEvent} {q : Int} {d : DiagStep} (h : stepShown obs ev q = some d) :
    d.dir = ev.code ∧ d.dir ≠ 0b00 ∧ d.pos = q := by
  cases obs with
  | false => simp at h
  | true =>
    cases ev with
    | none => cases h
    | cw | ccw => cases h; simp [StepEvent.code]

/-- No event has the code `11` (R66). -/
theorem StepEvent.code_ne_three (ev : StepEvent) : ev.code ≠ 0b11 := by
  cases ev <;> decide

/-! ### The invariant under each operation -/

/-- The invariant speaks neither of the index, nor of the queue, nor of the free values' counter, and of `ret` only
that a returned position fits. -/
theorem State.Inv.frame {s : State} (h : s.Inv) {r : Returned} (hr : ∀ v, r = .position v → fits s.posWidth v)
    (n k : Nat) (ds : List Delivery) : State.Inv { s with index := n, ret := r, pending := ds, ticks := k } where
  legal := h.legal
  posFits := h.posFits
  recordsFit := h.recordsFit
  shownFits := h.shownFits
  returnedFits := hr
  eventCode := h.eventCode
  silent := h.silent
  shown := h.shown
  shownPos := h.shownPos

theorem resetFor_inv (b : Build) : (State.resetFor b).Inv where
  legal := by cases hm : b.mode <;> simp [State.Legal, State.resetFor, hm, legalCode, stateCount]
  posFits := fits_zero _
  recordsFit := by simp [State.resetFor]
  shownFits := by simp [State.resetFor]
  returnedFits := by simp [State.resetFor]
  eventCode := by simp [State.resetFor]
  silent := by simp [State.resetFor]
  shown := by simp [State.resetFor]
  shownPos := by simp [State.resetFor]

theorem resetOp_inv (s : State) : (resetOp s).Inv :=
  (resetFor_inv s.build).frame (resetFor_inv s.build).returnedFits 0 s.ticks s.pending

theorem popDelivery_inv {s : State} (h : s.Inv) (rest : List Delivery) : (popDelivery rest s).Inv :=
  h.frame h.returnedFits s.index (s.ticks + 1) rest

theorem arbitrate_inv {s : State} (h : s.Inv) (p : PinSample) (l : Level) (n : Nat) : (arbitrate p l n s).Inv :=
  h.frame (by simp) s.index s.ticks _

theorem beginCycle_inv {s : State} (h : s.Inv) : (beginCycle s).Inv where
  legal := h.legal
  posFits := h.posFits
  recordsFit := h.recordsFit
  shownFits := by simp
  returnedFits := by simp
  eventCode := by simp
  silent := fun ho => ⟨(h.silent ho).1, rfl, rfl⟩
  shown := by simp
  shownPos := by simp

theorem idle_inv {s : State} (h : s.Inv) : (idle s).Inv := beginCycle_inv (popDelivery_inv h s.pending)

/-- In a cycle that shows no step yet an ENC_EDGE keeps the invariant: what it records and shows is its own position.
(After a step already shown, an ENC_EDGE without an event would leave `diag_step_dir` and `step_event` apart.) -/
theorem takeEnc_inv {s t : State} {p : PinSample} (h : s.Inv) (hd : s.diagStep = none) (ht : takeEnc p s = .next t) :
    t.Inv := by
  obtain ⟨-, c, ev, hc, -, rfl⟩ := takeEnc_cases ht
  have hfits : fits s.posWidth (posAfter s.posWidth ev s.pos) := posAfter_fits ev h.posFits
  exact {
    legal := hc
    posFits := hfits
    recordsFit := fun v hv => by
      simp only [List.mem_append, or_or_or_comm] at hv
      obtain hold | hnew := hv
      · exact h.recordsFit v hold
      · exact mem_stepRecords hnew ▸ hfits
    shownFits := fun d hshow => by
      simp only [hd, Option.or_none] at hshow
      exact (stepShown_eq_some hshow).2.2 ▸ hfits
    returnedFits := by simp
    eventCode := ev.code_ne_three
    silent := fun (ho : s.build.observability = false) => by simpa [ho] using h.silent ho
    shown := fun d hshow => by
      simp only [hd, Option.or_none] at hshow
      obtain ⟨hdir, hne, -⟩ := stepShown_eq_some hshow
      exact ⟨hdir, hne⟩
    shownPos := fun d hshow _ => by
      simp only [hd, Option.or_none] at hshow
      exact (stepShown_eq_some hshow).2.2 }

/-- A BTN_EDGE keeps the invariant. A press parts `pos` from the position shown, but where a step is shown the build
has observability, and the press is shown too. -/
theorem takeBtn_inv {s : State} (h : s.Inv) (l : Level) : (takeBtn l s).Inv where
  legal := by simpa [State.Legal] using h.legal
  posFits := by
    cases hl : pressed l
    · simpa [hl] using h.posFits
    · simpa [hl] using fits_zero s.posWidth
  recordsFit := fun v hv => by
    have hold : .cw v ∈ s.diag ∨ .ccw v ∈ s.diag := by
      rw [takeBtn_diag] at hv
      split at hv <;> simpa using hv
    simpa using h.recordsFit v hold
  shownFits := by simpa using h.shownFits
  returnedFits := by simpa using h.returnedFits
  eventCode := by simpa using h.eventCode
  silent := fun ho => by
    rw [takeBtn_build] at ho
    obtain ⟨hdiag, hstep, hrst⟩ := h.silent ho
    simp [ho, hdiag, hstep, hrst]
  shown := by simpa using h.shown
  shownPos := fun d hshow hrst => by
    rw [takeBtn_diagStep] at hshow
    cases hl : pressed l
    · simp only [takeBtn_diagRstValid, takeBtn_pos, hl] at hrst ⊢
      exact h.shownPos d hshow hrst
    · simp only [takeBtn_diagRstValid, hl, if_true] at hrst
      exact absurd ((h.silent hrst).2.1.symm.trans hshow) (by simp)

/-- Each operation that has a word keeps the invariant. -/
theorem exec_inv {i : Instr} {s t : State} (h : s.Inv) (ht : exec i s = .next t) : t.Inv := by
  cases i with
  | enc p => exact takeEnc_inv (beginCycle_inv h) rfl ht
  | btn l => exact Host.Outcome.next.inj ht ▸ takeBtn_inv (beginCycle_inv h) l
  | read =>
    obtain rfl := Host.Outcome.next.inj ht
    exact h.frame (fun v hv => Returned.position.inj hv ▸ h.posFits) (s.index + 1) s.ticks s.pending

/-- The notifications of one cycle keep the invariant from a state that shows no step: at most one is an ENC_EDGE. -/
theorem takeNotices_cycle_inv {c : PortIn} {s₀ s t : State} (h : s.Inv) (hd : s.diagStep = none)
    (ht : takeNotices (cycleNotices c s₀) s = .next t) : t.Inv := by
  obtain hn | hn | hn | hn | hn := cycleNotices_cases c s₀ <;> rw [hn] at ht
  case inl => exact Host.Outcome.next.inj ht ▸ h
  case inr.inl => exact takeEnc_inv h hd (by simpa using ht)
  case inr.inr.inl => exact Host.Outcome.next.inj ht ▸ takeBtn_inv h c.btnLevel
  case inr.inr.inr.inl =>
    obtain ⟨m, hm, hmt⟩ := takeNotices_cons_eq_next.1 ht
    exact Host.Outcome.next.inj hmt ▸ takeBtn_inv (takeEnc_inv h hd hm) c.btnLevel
  case inr.inr.inr.inr =>
    exact takeEnc_inv (takeBtn_inv h c.btnLevel) (by simpa using hd) (by simpa using ht)

/-- Settles O39, delivery by delivery. -/
theorem stepKeepsInvariant : Obligations.StepKeepsInvariant := by
  unfold Obligations.StepKeepsInvariant
  intro s t h hstep
  obtain ⟨-, rfl⟩ | ⟨w, rest, i, -, -, hi⟩ | ⟨rest, -, rfl⟩ | ⟨p, l, n, rest, -, rfl⟩ | ⟨c, rest, -, -, rfl⟩ |
    ⟨c, rest, -, -, hc⟩ := step_cases hstep
  · exact idle_inv h
  · exact exec_inv (popDelivery_inv h rest) hi
  · exact resetOp_inv _
  · exact arbitrate_inv (popDelivery_inv h rest) p l n
  · exact resetOp_inv _
  · exact takeNotices_cycle_inv (beginCycle_inv (popDelivery_inv h rest)) rfl hc

/-- Settles O38. -/
theorem resetMeetsInvariant : Obligations.ResetMeetsInvariant := by
  unfold Obligations.ResetMeetsInvariant
  exact ⟨resetFor_inv, resetFor_inv Config.defaultBuild⟩

end Sys2Proof.Machine
end

section
/-! PROOF. What `st` holds, who writes it and who does not see it (R22, R23, R25). -/

namespace Sys2Proof.Machine

/-- Bits [7:4] of a legal code are zero (R22). -/
theorem legalCode_high_bits {m : Mode} {c : Byte} (h : legalCode m c = true) : c.extractLsb' 4 4 = 0 := by
  cases m with
  | full => obtain ⟨q, rfl⟩ := legal_full_iff.1 h; cases q <;> rfl
  | half => obtain ⟨q, rfl⟩ := legal_half_iff.1 h; cases q <;> rfl

/-- The codes of the full-step states are 0 to 6 (R64). -/
theorem FullState.code_mem (q : FullState) : q.code ∈ [0#8, 1#8, 2#8, 3#8, 4#8, 5#8, 6#8] := by
  cases q <;> decide

/-- The codes of the half-step states are 0 to 5 (R65). -/
theorem HalfState.code_mem (q : HalfState) : q.code ∈ [0#8, 1#8, 2#8, 3#8, 4#8, 5#8] := by
  cases q <;> decide

/-- Settles O18: the next-state field of every cell read is a legal code. -/
theorem stHoldsLegalCode : Obligations.StHoldsLegalCode := by
  unfold Obligations.StHoldsLegalCode
  refine ⟨fun b => ⟨(resetFor_inv b).legal, legalCode_high_bits (resetFor_inv b).legal⟩, fun s t p h => ?_, fun s p h => ?_⟩
  · obtain ⟨-, c, ev, hc, -, rfl⟩ := execEnc_cases h
    refine ⟨legalCode_high_bits hc, fun hm => ?_, fun hm => ?_⟩
    · obtain ⟨q, rfl⟩ := legal_full_iff.1 (hm ▸ hc)
      exact q.code_mem
    · obtain ⟨q, rfl⟩ := legal_half_iff.1 (hm ▸ hc)
      exact q.code_mem
  · obtain ⟨t, ht, hlegal, -⟩ := takeEnc_legal (s := beginCycle s) h p
    exact ⟨t, ht, hlegal⟩

/-- A cycle without an encoder edge keeps `st`. -/
theorem takeNotices_st {ns : List Notice} {s t : State} (hns : ∀ p, .enc p ∉ ns) (h : takeNotices ns s = .next t) :
    t.st = s.st := by
  refine takeNotices_keeps_of_mem (P := fun a => a.st = s.st) (fun n hn a b ha hab => ?_) rfl h
  cases n with
  | enc p => exact absurd hn (hns p)
  | btn l => obtain rfl := Host.Outcome.next.inj hab; simpa using ha

/-- Settles O42: a word that moves `st` is an ENC_EDGE's, and a cycle without an encoder edge or RESET keeps `st`. -/
theorem onlyEncAndResetWriteSt : Obligations.OnlyEncAndResetWriteSt := by
  unfold Obligations.OnlyEncAndResetWriteSt
  intro s t hstep hne
  obtain ⟨-, rfl⟩ | ⟨w, rest, i, hp, hw, hi⟩ | ⟨rest, hp, -⟩ | ⟨p, l, n, rest, -, rfl⟩ | ⟨c, rest, hp, hr, -⟩ |
    ⟨c, rest, hp, hr, hc⟩ := step_cases hstep
  · exact absurd rfl hne
  · obtain ⟨p, rfl⟩ := (exec_st hi).resolve_left hne
    exact ⟨_, rest, hp, .inl (holdsEnc_of_decode hw)⟩
  · exact ⟨_, rest, hp, .inr rfl⟩
  · exact absurd rfl hne
  · exact ⟨_, rest, hp, .inr hr⟩
  · refine ⟨_, rest, hp, .inl ?_⟩
    by_contra hno
    have hquiet : ∀ p, .enc p ∉ cycleNotices c (popDelivery rest s) := fun p hmem =>
      hno (by simp [Delivery.holdsEnc, hr, (enc_mem_cycleNotices.1 hmem).1])
    exact hne (takeNotices_st (s := beginCycle (popDelivery rest s)) hquiet hc)

/-- A BTN_EDGE neither reads nor writes `st`. -/
theorem takeBtn_with_st (l : Level) (s : State) (c : Byte) :
    takeBtn l { s with st := c } = { takeBtn l s with st := c } := by
  cases hl : pressed l <;> cases ho : s.build.observability <;> simp [takeBtn, resetPos, emit, hl, ho]

/-- BTN_EDGE and READ_POS complete in every state, keep `st`, and do the same whatever it holds. -/
theorem exec_hides_st {i : Instr} (hi : ∀ p, i ≠ .enc p) (s : State) (c : Byte) :
    ∃ t, exec i s = .next t ∧ t.st = s.st ∧ exec i { s with st := c } = .next { t with st := c } := by
  cases i with
  | enc p => exact absurd rfl (hi p)
  | btn l =>
    exact ⟨takeBtn l (beginCycle s), rfl, by simp,
      congrArg Host.Outcome.next (takeBtn_with_st l (beginCycle s) c)⟩
  | read => exact ⟨_, rfl, rfl, rfl⟩

/-- Settles O34, by induction on the sequence: the two runs stay equal but for `st`. -/
theorem stIsHiddenFromButtonAndReader : Obligations.StIsHiddenFromButtonAndReader := by
  unfold Obligations.StIsHiddenFromButtonAndReader
  intro s c is his
  induction is generalizing s with
  | nil => exact ⟨rfl, s, rfl, rfl, rfl⟩
  | cons i is ih =>
    obtain ⟨m, hm, hst, hm'⟩ := exec_hides_st (his i List.mem_cons_self) s c
    obtain ⟨hret, t, ht, htst, ht'⟩ := ih m (fun j hj => his j (List.mem_cons_of_mem i hj))
    refine ⟨?_, t, (execAll_next hm).trans ht, htst.trans hst, (execAll_next hm').trans ht'⟩
    simpa [returns, trail_next hm, trail_next hm'] using hret

end Sys2Proof.Machine
end

section
/-! PROOF. Who writes `pos`, and to which values (R27). -/

namespace Sys2Proof.Machine

/-- A cycle without an encoder edge or a press keeps `pos`. -/
theorem takeNotices_pos {ns : List Notice} {s t : State} (henc : ∀ p, .enc p ∉ ns)
    (hbtn : ∀ l, .btn l ∈ ns → pressed l = false) (h : takeNotices ns s = .next t) : t.pos = s.pos := by
  refine takeNotices_keeps_of_mem (P := fun a => a.pos = s.pos) (fun n hn a b ha hab => ?_) rfl h
  cases n with
  | enc p => exact absurd hn (henc p)
  | btn l => obtain rfl := Host.Outcome.next.inj hab; simpa [hbtn l hn] using ha

/-- The notifications of one cycle move `pos` by the event of its ENC_EDGE (`none` where it has none) from where it was
or from 0, or leave it 0. -/
theorem takeNotices_cycle_pos {c : PortIn} {s₀ s t : State} (h : takeNotices (cycleNotices c s₀) s = .next t) :
    ∃ ev, t.pos = posAfter s.build.posWidth ev s.pos ∨ t.pos = posAfter s.build.posWidth ev 0 := by
  obtain hn | hn | hn | hn | hn := cycleNotices_cases c s₀ <;> rw [hn] at h
  case inl => exact ⟨.none, .inl (Host.Outcome.next.inj h ▸ rfl)⟩
  case inr.inl =>
    obtain ⟨ev, hev⟩ := takeEnc_pos ((takeNotices_enc _ s).symm.trans h)
    exact ⟨ev, .inl hev⟩
  case inr.inr.inl => exact ⟨.none, Host.Outcome.next.inj h ▸ takeBtn_pos_cases c.btnLevel s⟩
  case inr.inr.inr.inl =>
    obtain ⟨m, hm, hmt⟩ := takeNotices_cons_eq_next.1 h
    obtain ⟨ev, hev⟩ := takeEnc_pos hm
    obtain rfl := Host.Outcome.next.inj hmt
    obtain hkeep | hzero := takeBtn_pos_cases c.btnLevel m
    · exact ⟨ev, .inl (hkeep.trans hev)⟩
    · exact ⟨.none, .inr hzero⟩
  case inr.inr.inr.inr =>
    obtain ⟨ev, hev⟩ := takeEnc_pos ((takeNotices_enc _ _).symm.trans h)
    rw [takeBtn_build] at hev
    obtain hkeep | hzero := takeBtn_pos_cases c.btnLevel s
    · exact ⟨ev, .inl (hkeep ▸ hev)⟩
    · exact ⟨ev, .inr (hzero ▸ hev)⟩

/-- Every step leaves `pos` where an event (or `none`) takes it from where it was or from 0. -/
theorem step_pos {s t : State} (h : step s = .next t) :
    ∃ ev, t.pos = posAfter s.build.posWidth ev s.pos ∨ t.pos = posAfter s.build.posWidth ev 0 := by
  obtain ⟨-, rfl⟩ | ⟨w, rest, i, -, -, hi⟩ | ⟨rest, -, rfl⟩ | ⟨p, l, n, rest, -, rfl⟩ | ⟨c, rest, -, -, rfl⟩ |
    ⟨c, rest, -, -, hc⟩ := step_cases h
  · exact ⟨.none, .inl rfl⟩
  · cases i with
    | enc p =>
      obtain ⟨ev, hev⟩ := takeEnc_pos (s := beginCycle (popDelivery rest s)) hi
      exact ⟨ev, .inl hev⟩
    | btn l => exact ⟨.none, Host.Outcome.next.inj hi ▸ takeBtn_pos_cases l (beginCycle (popDelivery rest s))⟩
    | read => exact ⟨.none, .inl (Host.Outcome.next.inj hi ▸ rfl)⟩
  · exact ⟨.none, .inr rfl⟩
  · exact ⟨.none, .inl rfl⟩
  · exact ⟨.none, .inr rfl⟩
  · exact takeNotices_cycle_pos (s := beginCycle (popDelivery rest s)) hc

/-- A step that moves `pos` takes an ENC_EDGE, a press or a RESET. -/
theorem step_moves_pos {s t : State} (h : step s = .next t) (hne : t.pos ≠ s.pos) :
    ∃ d rest, s.pending = d :: rest ∧ (d.holdsEnc = true ∨ d.holdsPress = true ∨ d.holdsReset = true) := by
  obtain ⟨-, rfl⟩ | ⟨w, rest, i, hp, hw, hi⟩ | ⟨rest, hp, -⟩ | ⟨p, l, n, rest, -, rfl⟩ | ⟨c, rest, hp, hr, -⟩ |
    ⟨c, rest, hp, hr, hc⟩ := step_cases h
  · exact absurd rfl hne
  · obtain ⟨p, rfl⟩ | ⟨l, rfl, hl⟩ := (exec_pos hi).resolve_left hne
    · exact ⟨_, rest, hp, .inl (holdsEnc_of_decode hw)⟩
    · exact ⟨_, rest, hp, .inr (.inl (holdsPress_of_decode hw hl))⟩
  · exact ⟨_, rest, hp, .inr (.inr rfl)⟩
  · exact absurd rfl hne
  · exact ⟨_, rest, hp, .inr (.inr hr)⟩
  · refine ⟨_, rest, hp, ?_⟩
    by_contra! hno
    obtain ⟨hnoEnc, hnoPress, -⟩ := hno
    have henc : ∀ p, .enc p ∉ cycleNotices c (popDelivery rest s) := fun p hmem =>
      hnoEnc (by simp [Delivery.holdsEnc, hr, (enc_mem_cycleNotices.1 hmem).1])
    have hbtn : ∀ l, .btn l ∈ cycleNotices c (popDelivery rest s) → pressed l = false := fun l hmem => by
      obtain ⟨hv, rfl⟩ := btn_mem_cycleNotices.1 hmem
      simpa [Delivery.holdsPress, hr, hv, pressed] using hnoPress
    exact hne (takeNotices_pos (s := beginCycle (popDelivery rest s)) henc hbtn hc)

/-- Settles O43. -/
theorem onlyEncPressAndResetWritePos : Obligations.OnlyEncPressAndResetWritePos := by
  unfold Obligations.OnlyEncPressAndResetWritePos
  intro s t hstep hne
  refine ⟨step_moves_pos hstep hne, ?_⟩
  obtain ⟨ev, hpos | hpos⟩ := step_pos hstep
  · cases ev with
    | none => exact absurd hpos hne
    | cw => exact .inr (.inl hpos)
    | ccw => exact .inr (.inr (.inl hpos))
  · cases ev with
    | none => exact .inl hpos
    | cw | ccw => simp [hpos, posAfter]

end Sys2Proof.Machine
end

section
/-! PROOF. The step event and the ports, the trace index, the pulses, and the values of reset (R28, R30, R33 to R35). -/

namespace Sys2Proof.Machine

/-- Settles O29: each cell gives one event; a cycle begins by clearing `ret` and `step_event`, READ_POS looks at neither,
and RESET sets both. -/
theorem stepEventReturnedAndShown : Obligations.StepEventReturnedAndShown := by
  unfold Obligations.StepEventReturnedAndShown
  refine ⟨fun s t p h => ?_, fun s t l h ev => ?_, fun s t h ev => ?_, fun s t h ev => ?_, fun s t r e o h => ?_⟩
  · obtain ⟨-, c, ev, -, -, rfl⟩ := execEnc_cases h
    cases ev <;> simp [encNext, shownCode]
  · obtain rfl := Host.Outcome.next.inj h
    simp
  · obtain rfl := Host.Outcome.next.inj h
    exact Returned.noConfusion
  · obtain rfl := Host.Outcome.next.inj h
    exact Returned.noConfusion
  · match o with
    | .stimulus (.enc _) | .stimulus (.btn _) | .reset => exact ⟨t, h, rfl, rfl, rfl, rfl, rfl⟩
    | .stimulus .read =>
      obtain rfl := Host.Outcome.next.inj h
      exact ⟨_, rfl, rfl, rfl, rfl, rfl, rfl⟩

/-- Settles O9. -/
theorem resetLeavesStartAndZero : Obligations.ResetLeavesStartAndZero := by
  unfold Obligations.ResetLeavesStartAndZero
  exact fun b => ⟨rfl, rfl, rfl, rfl, rfl, rfl, rfl, rfl, rfl, rfl⟩

/-- The opcode table's number for an instruction is a word that decodes to it. -/
theorem decode_of_decodeTableWord {nbits w : Nat} {i : Instr} (h : decodeTableWord nbits w = some i) :
    decode (tableWord nbits w) = .ok i := by
  unfold decodeTableWord at h
  split at h
  · split at h
    · rw [‹decode _ = _›, Option.some.inj h]
    · cases h
  · cases h

/-- Settles O13. -/
theorem stepRunsDecodedInstruction : Obligations.StepRunsDecodedInstruction := by
  unfold Obligations.StepRunsDecodedInstruction
  exact ⟨fun s w i rest hp hw => step_word hp hw, fun s nbits w i h =>
    step_word (s := s.withFetchWord nbits w) rfl (decode_of_decodeTableWord h)⟩

/-- Settles O37. -/
theorem indexAdvancesByOne : Obligations.IndexAdvancesByOne := by
  unfold Obligations.IndexAdvancesByOne
  have hexec {i : Instr} {s t : State} (h : exec i s = .next t) : t.index = s.index + 1 ∧ t.pending = s.pending := by
    obtain ⟨-, hpending, -, hindex, -⟩ := exec_keeps h
    exact ⟨hindex, hpending⟩
  refine ⟨fun i s t => hexec, fun s t w rest hp hstep => ?_⟩
  obtain ⟨i, -, hi⟩ := step_word_inv hp hstep
  exact hexec hi

/-- A cycle with no input valid takes no notification. -/
theorem cycleNotices_quiet {c : PortIn} (henc : c.encValid = false) (hbtn : c.btnValid = false) (s : State) :
    cycleNotices c s = [] := by
  simp [cycleNotices, henc, hbtn]

/-- Settles O15: both cycles only begin. -/
theorem pulsesLastOneCycle : Obligations.PulsesLastOneCycle := by
  unfold Obligations.PulsesLastOneCycle
  intro s c rest hr henc hbtn
  refine ⟨rfl, ?_⟩
  simp only [step, deliver, portCycle, hr, cycleNotices_quiet henc hbtn]
  rfl

/-- The port `position` shows a position that fits the counter as the signed integer it is (R44). -/
theorem toInt_positionPort {s : State} (h : fits s.posWidth s.pos) : s.positionPort.toInt = s.pos := by
  calc s.positionPort.toInt = wrap s.posWidth s.pos := BitVec.toInt_ofInt s.pos
    _ = s.pos := wrap_eq_self s.build.posWidth.pos h

/-- Settles O55: the sign bit of `position` is that of its signed value. -/
theorem portsShowTheRegisters : Obligations.PortsShowTheRegisters := by
  unfold Obligations.PortsShowTheRegisters
  intro s
  refine ⟨rfl, fun hfits => ?_, rfl, fun ho => ?_, fun ho => ⟨?_, fun hd => ?_, fun d hd => ?_⟩⟩
  · have hint := toInt_positionPort hfits
    refine ⟨hint, ?_⟩
    change s.positionPort.msb = true ↔ s.pos < 0
    rw [BitVec.msb_eq_toInt, hint, decide_eq_true_iff]
  · simp [State.diagStepValidPort, State.diagStepDirPort, State.diagStepPosPort, State.diagRstValidPort, ho]
  · simp [State.diagRstValidPort, ho]
  · simp [State.diagStepValidPort, ho, hd]
  · simp [State.diagStepValidPort, State.diagStepDirPort, State.diagStepPosPort, ho, hd, posBits]

end Sys2Proof.Machine
end

section
/-! PROOF. The memory (20_memory.md): the ROM's layout, and what a read of it from a legal code gives (R40 to R43). -/

namespace Sys2Proof.Machine

/-- Settles O7: the ROM is its table's bytes laid out from offset 0. -/
theorem romLayout : Obligations.RomLayout := by
  unfold Obligations.RomLayout
  refine ⟨fun m => cellsFrom_wf 0 (romBytes m), fun a => ?_, fun a => ?_, fun m st p => rfl⟩
  · rw [rom_read, isSome_getElem?, show (romBytes .full).length = 28 from rfl]
  · rw [rom_read, isSome_getElem?, show (romBytes .half).length = 24 from rfl]

/-- A row of the ROM of a full-step build holds the entries of `T_FULL` (R83). -/
theorem tableRead_full (q : FullState) (p : PinSample) :
    tableRead .full q.code p = some (entryByte (fullCell q p).1.code (fullCell q p).2) := by
  obtain rfl | rfl | rfl | rfl := sample_cases p <;> cases q <;> rfl

/-- A row of the ROM of a half-step build holds the entries of `T_HALF` (R87). -/
theorem tableRead_half (q : HalfState) (p : PinSample) :
    tableRead .half q.code p = some (entryByte (halfCell q p).1.code (halfCell q p).2) := by
  obtain rfl | rfl | rfl | rfl := sample_cases p <;> cases q <;> rfl

/-- From a legal code the table read gives the entry of a legal code and an event (R43). -/
theorem tableRead_legal {m : Mode} {st : Byte} (h : legalCode m st = true) (p : PinSample) :
    ∃ c ev, legalCode m c = true ∧ tableRead m st p = some (entryByte c ev) := by
  cases m with
  | full =>
    obtain ⟨q, rfl⟩ := legal_full_iff.1 h
    exact ⟨_, _, legal_full_iff.2 ⟨_, rfl⟩, tableRead_full q p⟩
  | half =>
    obtain ⟨q, rfl⟩ := legal_half_iff.1 h
    exact ⟨_, _, legal_half_iff.2 ⟨_, rfl⟩, tableRead_half q p⟩

/-- The fields of the entry of a code of four bits and an event are that code and that event's code (R66, R67). -/
theorem entryByte_fields {c : Byte} (hc : c.extractLsb' 4 4 = 0) (ev : StepEvent) :
    entryNxt (entryByte c ev) = c ∧ entryEvc (entryByte c ev) = ev.code := by
  cases ev <;> revert hc c <;> decide

/-- Settles O8: the entry read is that of a legal code and an event. -/
theorem tableReadsStayInRange : Obligations.TableReadsStayInRange := by
  unfold Obligations.TableReadsStayInRange
  intro m st p h
  obtain ⟨c, ev, hc, hread⟩ := tableRead_legal h p
  obtain ⟨hnxt, hevc⟩ := entryByte_fields (legalCode_high_bits hc) ev
  exact ⟨_, hread, hnxt.symm ▸ hc, hevc.symm ▸ ev.code_ne_three⟩

end Sys2Proof.Machine
end

section
/-! PROOF. The operations of a same-window pair in one order (R50), and the operations of a delivered word, pair or
cycle in an order that R50 and R51 permit. -/

namespace Sys2Proof.Machine

/-! ### The order of a pair -/

/-- The two edges of a same-window pair in an order `SIMUL_ORDER` admits (R50). -/
def pairOrdered (o : SimulOrder) (p : PinSample) (l : Level) (x y : Instr) : Prop :=
  (x = .enc p ∧ y = .btn l ∧ o ≠ .btnFirst) ∨ (x = .btn l ∧ y = .enc p ∧ o ≠ .encFirst)

/-- The encoder edge comes first only where the build admits it. -/
theorem encComesFirst_of_true {s : State} (h : encComesFirst s = true) : s.build.simulOrder ≠ .btnFirst := by
  intro ho
  simp [encComesFirst, ho] at h

/-- The button edge comes first only where the build admits it. -/
theorem encComesFirst_of_false {s : State} (h : encComesFirst s = false) : s.build.simulOrder ≠ .encFirst := by
  intro ho
  simp [encComesFirst, ho] at h

/-- The arbiter's pair is in an admitted order. -/
theorem orderPair_pairOrdered (s : State) (p : PinSample) (l : Level) :
    pairOrdered s.build.simulOrder p l (orderPair (encComesFirst s) (Instr.enc p) (Instr.btn l)).1
      (orderPair (encComesFirst s) (Instr.enc p) (Instr.btn l)).2 := by
  cases h : encComesFirst s with
  | true => exact .inl ⟨rfl, rfl, encComesFirst_of_true h⟩
  | false => exact .inr ⟨rfl, rfl, encComesFirst_of_false h⟩

/-- `a` reads, an edge, `b` reads, the other edge and `c` reads (R52). -/
def windowInstrs (a b c : Nat) (x y : Instr) : List Instr :=
  List.replicate a .read ++ x :: (List.replicate b .read ++ y :: List.replicate c .read)

/-- The readers before, between and after the edges of a window are all its readers. -/
theorem splitReaders_sum (tick n : Nat) :
    (splitReaders tick n).1 + (splitReaders tick n).2.1 + (splitReaders tick n).2.2 = n := by
  cases n with
  | zero => rfl
  | succ n => simp only [splitReaders]; omega

/-- The words of a window: its pair in an admitted order, and all its readers around them. -/
theorem windowWords_cases (p : PinSample) (l : Level) (n : Nat) (s : State) :
    ∃ a b c x y, a + b + c = n ∧ pairOrdered s.build.simulOrder p l x y ∧
      windowWords p l n s = deliveriesOf (windowInstrs a b c x y) :=
  ⟨_, _, _, _, _, splitReaders_sum s.ticks n, orderPair_pairOrdered s p l,
    by simp [windowWords, deliveriesOf, windowInstrs]⟩

/-- A step over a same-window pair only arbitrates it. -/
theorem step_window {s : State} {p : PinSample} {l : Level} {n : Nat} {rest : List Delivery}
    (hp : s.pending = .window p l n :: rest) : step s = .next (arbitrate p l n (popDelivery rest s)) := by
  simp only [step, hp, deliver]

/-- Settles O49: without readers, the words of the window are those of its ordered pair. -/
theorem windowOrder : Obligations.WindowOrder := by
  unfold Obligations.WindowOrder
  intro s p l rest hp
  refine ⟨_, step_window hp, rfl, rfl, rfl, rfl, ?_⟩
  obtain ⟨a, b, c, x, y, hsum, hpair, hwords⟩ := windowWords_cases p l 0 (popDelivery rest s)
  obtain ⟨rfl, rfl, rfl⟩ : a = 0 ∧ b = 0 ∧ c = 0 := by omega
  rw [arbitrate_pending, hwords]
  obtain ⟨rfl, rfl, ho⟩ | ⟨rfl, rfl, ho⟩ := hpair
  · exact ⟨fun _ => rfl, fun hb => absurd hb ho, .inl rfl⟩
  · exact ⟨fun hb => absurd hb ho, fun _ => rfl, .inr rfl⟩

/-! ### Admitted orders -/

/-- An edge of a pair comes before the other in a window's operations. -/
theorem comesBefore_windowInstrs (a b c : Nat) (x y : Instr) :
    comesBefore (.stimulus x) (.stimulus y) ((windowInstrs a b c x y).map .stimulus) := by
  have hx : [x, y].Sublist (windowInstrs a b c x y) :=
    ((((List.nil_sublist _).cons_cons y).trans (List.sublist_append_right _ _)).cons_cons x).trans
      (List.sublist_append_right _ _)
  exact hx.map Operation.stimulus

/-- The operations of a window are its edges and its readers. -/
theorem windowInstrs_perm (a b c : Nat) (x y : Instr) :
    (windowInstrs a b c x y).Perm (x :: y :: List.replicate (a + b + c) Instr.read) := by
  have hy : (List.replicate a Instr.read ++ (List.replicate b Instr.read ++ y :: List.replicate c Instr.read)).Perm
      (y :: List.replicate (a + b + c) Instr.read) := by
    rw [← List.replicate_append_replicate, ← List.replicate_append_replicate, ← List.append_assoc]
    exact List.perm_middle
  exact List.perm_middle.trans (hy.cons x)

/-- A pair in an admitted order, with readers around its edges, is an order of the window that R50 admits. -/
theorem admits_window {o : SimulOrder} {p : PinSample} {l : Level} {x y : Instr} (h : pairOrdered o p l x y)
    (a b c : Nat) :
    (Delivery.window p l (a + b + c)).Admits o ((windowInstrs a b c x y).map .stimulus) := by
  have hperm := (windowInstrs_perm a b c x y).map Operation.stimulus
  have hbefore := comesBefore_windowInstrs a b c x y
  simp only [List.map_cons, List.map_replicate] at hperm
  obtain ⟨rfl, rfl, ho⟩ | ⟨rfl, rfl, ho⟩ := h
  · refine ⟨hperm, ?_⟩
    cases o with
    | encFirst => exact hbefore
    | btnFirst => exact absurd rfl ho
    | any => trivial
  · refine ⟨hperm.trans (.swap _ _ _), ?_⟩
    cases o with
    | encFirst => exact absurd rfl ho
    | btnFirst => exact hbefore
    | any => trivial

/-- The operation that takes a notification (R152). -/
def Notice.instr : Notice → Instr
  | .enc p => .enc p
  | .btn l => .btn l

/-- The edges of a pair are the operations of its two notifications. -/
theorem pairOrdered.notices {o : SimulOrder} {p : PinSample} {l : Level} {x y : Instr} (h : pairOrdered o p l x y) :
    ∃ n n' : Notice, x = n.instr ∧ y = n'.instr := by
  obtain ⟨rfl, rfl, -⟩ | ⟨rfl, rfl, -⟩ := h
  · exact ⟨.enc p, .btn l, rfl, rfl⟩
  · exact ⟨.btn l, .enc p, rfl, rfl⟩

/-- The notifications of a cycle with both are a pair in an admitted order (R50). -/
theorem cycleNotices_pair {c : PortIn} (henc : c.encValid = true) (hbtn : c.btnValid = true) (s : State) :
    ∃ x y, pairOrdered s.build.simulOrder c.encSample c.btnLevel x y ∧
      (cycleNotices c s).map Notice.instr = windowInstrs 0 0 0 x y := by
  refine ⟨_, _, orderPair_pairOrdered s c.encSample c.btnLevel, ?_⟩
  simp only [cycleNotices, henc, hbtn]
  cases encComesFirst s <;> rfl

/-- The notifications of a cycle without RESET, as the machine orders them, are an order of it that R50 admits. -/
theorem admits_cycle {c : PortIn} (hr : c.rst = false) (s : State) :
    (Delivery.cycle c).Admits s.build.simulOrder (((cycleNotices c s).map Notice.instr).map .stimulus) := by
  simp only [Delivery.Admits, hr, Bool.false_eq_true, if_false]
  cases henc : c.encValid with
  | false => cases hbtn : c.btnValid <;> simp [cycleNotices, henc, hbtn, Notice.instr]
  | true =>
    cases hbtn : c.btnValid with
    | false => simp [cycleNotices, henc, hbtn, Notice.instr]
    | true =>
      obtain ⟨x, y, hpair, hnotices⟩ := cycleNotices_pair henc hbtn s
      obtain ⟨hperm, horder⟩ := admits_window hpair 0 0 0
      exact hnotices ▸ ⟨hperm, fun _ _ => horder⟩

end Sys2Proof.Machine
end

section
/-! PROOF. Atomicity (R45 to R52): runs with the values their reads return, and what the operations do to states that
agree in their registers. -/

namespace Sys2Proof.Machine

/-! ### Runs and the values their reads return -/

/-- The value of a read, as a list; an operation of another kind returned none. -/
def Returned.reads : Returned → List Int
  | .position v => [v]
  | _ => []

/-- The reads among some states, the first apart. -/
theorem readValues_cons (t : State) (ts : List State) : readValues (t :: ts) = t.ret.reads ++ readValues ts := by
  cases h : t.ret <;> simp [readValues, h, Returned.reads]

/-- So many steps take one state to another, and their reads return these values. -/
inductive StepsTo : Nat → State → List Int → State → Prop
  | refl (s : State) : StepsTo 0 s [] s
  | head {s t u : State} {k : Nat} {vs : List Int} (h : step s = .next t) (hk : StepsTo k t vs u) :
      StepsTo (k + 1) s (t.ret.reads ++ vs) u

theorem StepsTo.trans {s t u : State} {j k : Nat} {vs ws : List Int} (h : StepsTo j s vs t) (h' : StepsTo k t ws u) :
    StepsTo (j + k) s (vs ++ ws) u := by
  induction h with
  | refl => simpa using h'
  | head hstep _ ih => simpa only [Nat.succ_add, List.append_assoc] using .head hstep (ih h')

/-- One step whose return is known. -/
theorem StepsTo.single {s t : State} {vs : List Int} (h : step s = .next t) (hret : t.ret.reads = vs) :
    StepsTo 1 s vs t := by
  simpa [hret] using StepsTo.head h (.refl t)

/-- The run of the machine that the steps are. -/
theorem StepsTo.run {s t : State} {k : Nat} {vs : List Int} (h : StepsTo k s vs t) :
    Host.Core.run Sys2Proof.core k s = .next t := by
  induction h with
  | refl => rfl
  | head hstep _ ih => rw [core_run_next hstep, ih]

/-- The values the reads of the run return. -/
theorem StepsTo.readValues_eq {s t : State} {k : Nat} {vs : List Int} (h : StepsTo k s vs t) :
    readValues (stepTrail k s) = vs := by
  induction h with
  | refl => rfl
  | head hstep _ ih => rw [stepTrail_next hstep, readValues_cons, ih]

/-- These operations, one at a time, take one state to another, and their reads return these values. -/
inductive OperationsTo : List Operation → State → List Int → State → Prop
  | refl (s : State) : OperationsTo [] s [] s
  | head {s t u : State} {o : Operation} {os : List Operation} {vs : List Int} (h : runOperation o s = .next t)
      (hos : OperationsTo os t vs u) : OperationsTo (o :: os) s (t.ret.reads ++ vs) u

theorem OperationsTo.trans {s t u : State} {os os' : List Operation} {vs ws : List Int} (h : OperationsTo os s vs t)
    (h' : OperationsTo os' t ws u) : OperationsTo (os ++ os') s (vs ++ ws) u := by
  induction h with
  | refl => exact h'
  | head hop _ ih => simpa only [List.cons_append, List.append_assoc] using .head hop (ih h')

/-- One operation whose return is known. -/
theorem OperationsTo.single {s t : State} {o : Operation} {vs : List Int} (h : runOperation o s = .next t)
    (hret : t.ret.reads = vs) : OperationsTo [o] s vs t := by
  simpa [hret] using OperationsTo.head h (.refl t)

/-- The states after the operations: one for each, with their reads, the last of them where the operations lead. -/
theorem OperationsTo.trail {s t : State} {os : List Operation} {vs : List Int} (h : OperationsTo os s vs t) :
    (operationTrail os s).length = os.length ∧ readValues (operationTrail os s) = vs ∧
      (s :: operationTrail os s).getLast? = some t := by
  induction h with
  | refl => exact ⟨rfl, rfl, rfl⟩
  | head hop _ ih =>
    obtain ⟨hlength, hreads, hlast⟩ := ih
    simp only [operationTrail, hop, readValues_cons, hreads, List.length_cons, hlength, List.getLast?_cons_cons, hlast,
      and_self]

/-! ### States that agree -/

/-- The two states hold the same registers, records and build, and the first has taken `j` stimuli more. -/
structure Agrees (j : Nat) (s u : State) : Prop where
  st : s.st = u.st
  pos : s.pos = u.pos
  diag : s.diag = u.diag
  build : s.build = u.build
  index : s.index = u.index + j

theorem Agrees.refl (s : State) : Agrees 0 s s := ⟨rfl, rfl, rfl, rfl, rfl⟩

/-- A stimulus taken on both sides. -/
theorem Agrees.index_succ {j : Nat} {s u : State} (h : Agrees j s u) : s.index + 1 = u.index + 1 + j := by
  rw [h.index]
  omega

/-! The start of a cycle, the queue and the arbiter move no register, record or index. -/

theorem Agrees.beginCycle_left {j : Nat} {s u : State} (h : Agrees j s u) : Agrees j (beginCycle s) u :=
  ⟨h.st, h.pos, h.diag, h.build, h.index⟩

theorem Agrees.beginCycle_right {j : Nat} {s u : State} (h : Agrees j s u) : Agrees j s (beginCycle u) :=
  ⟨h.st, h.pos, h.diag, h.build, h.index⟩

theorem Agrees.popDelivery_left {j : Nat} {s u : State} (h : Agrees j s u) (rest : List Delivery) :
    Agrees j (popDelivery rest s) u :=
  ⟨h.st, h.pos, h.diag, h.build, h.index⟩

theorem Agrees.arbitrate_left {j : Nat} {s u : State} (h : Agrees j s u) (p : PinSample) (l : Level) (n : Nat) :
    Agrees j (arbitrate p l n s) u :=
  ⟨h.st, h.pos, h.diag, h.build, h.index⟩

/-- `process` looks only at `st` and the build. -/
theorem process_congr {s u : State} {p : PinSample} {c : Byte} {ev : StepEvent} (hst : s.st = u.st)
    (hbuild : s.build = u.build) (h : process p u = .ok ({ u with st := c }, ev)) :
    process p s = .ok ({ s with st := c }, ev) := by
  simp only [process, hst, hbuild] at h ⊢
  split at h
  · cases h
  · split at h
    · cases h
    · cases h; simp_all

/-- A notification does the same to states that agree. -/
theorem takeNotice_agrees {j : Nat} {n : Notice} {s u v : State} (h : Agrees j s u) (hv : takeNotice n u = .next v) :
    ∃ t, takeNotice n s = .next t ∧ Agrees j t v := by
  cases n with
  | enc p =>
    obtain ⟨-, c, ev, -, hc, rfl⟩ := takeEnc_cases hv
    exact ⟨_, takeEnc_eq (process_congr h.st h.build hc), rfl, by simp [h.pos, h.build],
      by simp [h.pos, h.diag, h.build], h.build, h.index_succ⟩
  | btn l =>
    obtain rfl := Host.Outcome.next.inj hv
    exact ⟨_, rfl, by simp [h.st], by simp [h.pos], by simp [h.diag, h.build], by simp [h.build],
      by simpa using h.index_succ⟩

/-- A notification from a legal state is taken. -/
theorem takeNotice_legal {s : State} (h : s.Legal) (n : Notice) : ∃ t, takeNotice n s = .next t := by
  cases n with
  | enc p => exact (takeEnc_legal h p).imp fun t ht => ht.1
  | btn l => exact ⟨_, rfl⟩

/-- A notification returns no position, and keeps the queue and the build. -/
theorem takeNotice_keeps {n : Notice} {s t : State} (h : takeNotice n s = .next t) :
    (s.ret.reads = [] → t.ret.reads = []) ∧ t.pending = s.pending ∧ t.build = s.build := by
  cases n with
  | enc p =>
    obtain ⟨-, c, ev, -, -, rfl⟩ := takeEnc_cases h
    exact ⟨fun _ => rfl, rfl, rfl⟩
  | btn l =>
    obtain rfl := Host.Outcome.next.inj h
    simp

/-- The operation of a notification is a cycle in which it alone is taken (R70). -/
theorem exec_instr (n : Notice) (s : State) : exec n.instr s = takeNotice n (beginCycle s) := by
  cases n <;> rfl

/-- An instruction is that of a notification, or READ_POS. -/
theorem instr_cases (i : Instr) : i = .read ∨ ∃ n : Notice, i = n.instr := by
  cases i with
  | enc p => exact .inr ⟨.enc p, rfl⟩
  | btn l => exact .inr ⟨.btn l, rfl⟩
  | read => exact .inl rfl

/-- The operation of a notification returns no position. -/
theorem exec_instr_reads {n : Notice} {s t : State} (h : exec n.instr s = .next t) : t.ret.reads = [] :=
  (takeNotice_keeps (exec_instr n s ▸ h)).1 rfl

/-- An operation does the same to states that agree, and returns the same position if it is a read. -/
theorem exec_agrees {j : Nat} {i : Instr} {s u v : State} (h : Agrees j s u) (hv : exec i u = .next v) :
    ∃ t, exec i s = .next t ∧ Agrees j t v ∧ t.ret.reads = v.ret.reads := by
  obtain rfl | ⟨n, rfl⟩ := instr_cases i
  · obtain rfl := Host.Outcome.next.inj hv
    exact ⟨_, rfl, ⟨h.st, h.pos, h.diag, h.build, h.index_succ⟩, by simp [Returned.reads, h.pos]⟩
  · obtain ⟨t, ht, hag⟩ := takeNotice_agrees h.beginCycle_left.beginCycle_right (exec_instr n u ▸ hv)
    have ht' : exec n.instr s = .next t := exec_instr n s ▸ ht
    exact ⟨t, ht', hag, (exec_instr_reads ht').trans (exec_instr_reads hv).symm⟩

/-- An operation from a legal state is taken. -/
theorem exec_legal {s : State} (h : s.Legal) (i : Instr) : ∃ t, exec i s = .next t := by
  obtain rfl | ⟨n, rfl⟩ := instr_cases i
  · exact ⟨_, rfl⟩
  · exact (exec_instr n s).symm ▸ takeNotice_legal (s := beginCycle s) h n

/-- The word of an operation decodes to it. -/
theorem decode_encode (i : Instr) : decode (encode i) = .ok i := by
  cases i with
  | enc p => obtain rfl | rfl | rfl | rfl := sample_cases p <;> rfl
  | btn l => obtain rfl | rfl := level_cases l <;> rfl
  | read => rfl

/-- A step over a word does to the machine what the operation does to a state that agrees, and returns the same
position if it is a read. -/
theorem step_word_agrees {j : Nat} {i : Instr} {s u v : State} {rest : List Delivery} (h : Agrees j s u)
    (hp : s.pending = .word (encode i) :: rest) (hv : exec i u = .next v) :
    ∃ t, step s = .next t ∧ Agrees j t v ∧ t.ret.reads = v.ret.reads ∧ t.pending = rest := by
  obtain ⟨t, ht, hag, hreads⟩ := exec_agrees (h.popDelivery_left rest) hv
  obtain ⟨-, hpending, -⟩ := exec_keeps ht
  exact ⟨t, (step_word hp (decode_encode i)).trans ht, hag, hreads, hpending⟩

end Sys2Proof.Machine
end

section
/-! PROOF. A reader concurrent with a same-window pair (R52): the window's words, run by run of readers. -/

namespace Sys2Proof.Machine

/-- The word of an edge of a pair: no position is returned. -/
theorem stepsTo_edge {j : Nat} {n : Notice} {s u v : State} {rest : List Delivery} (h : Agrees j s u)
    (hp : s.pending = .word (encode n.instr) :: rest) (hv : exec n.instr u = .next v) :
    ∃ t, StepsTo 1 s [] t ∧ Agrees j t v ∧ t.pending = rest := by
  obtain ⟨t, ht, hag, hreads, hpending⟩ := step_word_agrees h hp hv
  exact ⟨t, .single ht (hreads.trans (exec_instr_reads hv)), hag, hpending⟩

/-- The words of some reads return the position each, and move the index only. -/
theorem stepsTo_reads {j a : Nat} {s u : State} {rest : List Delivery} (h : Agrees j s u)
    (hp : s.pending = deliveriesOf (List.replicate a .read) ++ rest) :
    ∃ t, StepsTo a s (List.replicate a u.pos) t ∧ Agrees (j + a) t u ∧ t.pending = rest := by
  induction a generalizing j s with
  | zero => exact ⟨s, .refl s, h, hp⟩
  | succ a ih =>
    obtain ⟨t, ht, hag, hreads, hpending⟩ := step_word_agrees h hp (execRead_eq u)
    have hag' : Agrees (j + 1) t u := ⟨hag.st, hag.pos, hag.diag, hag.build, hag.index.trans (Nat.succ_add u.index j)⟩
    obtain ⟨t', hsteps, hag'', hrest⟩ := ih hag' hpending
    have hvalue : t.ret.reads = [u.pos] := hreads
    refine ⟨t', ?_, by rwa [Nat.add_assoc, Nat.add_comm 1] at hag'', hrest⟩
    simpa [hvalue, List.replicate_succ] using StepsTo.head ht hsteps

/-- The words of a window with readers: each reader sees the position before both edges, between them or after them. -/
theorem stepsTo_window {j a b c : Nat} {x y : Notice} {s u m v : State} {rest : List Delivery} (h : Agrees j s u)
    (hp : s.pending = deliveriesOf (windowInstrs a b c x.instr y.instr) ++ rest) (hm : exec x.instr u = .next m)
    (hv : exec y.instr m = .next v) :
    ∃ t, StepsTo (a + b + c + 2) s (List.replicate a u.pos ++ (List.replicate b m.pos ++ List.replicate c v.pos)) t ∧
      Agrees (j + a + b + c) t v ∧ t.pending = rest := by
  obtain ⟨s₁, h₁, hag₁, hp₁⟩ := stepsTo_reads h (a := a) (by simpa [deliveriesOf, windowInstrs] using hp)
  obtain ⟨s₂, h₂, hag₂, hp₂⟩ := stepsTo_edge hag₁ hp₁ hm
  obtain ⟨s₃, h₃, hag₃, hp₃⟩ := stepsTo_reads (a := b) hag₂ (by simpa [deliveriesOf] using hp₂)
  obtain ⟨s₄, h₄, hag₄, hp₄⟩ := stepsTo_edge hag₃ hp₃ hv
  obtain ⟨t, h₅, hag₅, hp₅⟩ := stepsTo_reads (a := c) hag₄ (by simpa [deliveriesOf] using hp₄)
  refine ⟨t, ?_, hag₅, hp₅⟩
  have hsteps := h₁.trans (h₂.trans (h₃.trans (h₄.trans h₅)))
  rwa [show a + (1 + (b + (1 + c))) = a + b + c + 2 by omega] at hsteps

/-- Settles O51: the arbiter places the reads before, between and after the edges of its pair. -/
theorem concurrentReaderSeesThreeValues : Obligations.ConcurrentReaderSeesThreeValues := by
  unfold Obligations.ConcurrentReaderSeesThreeValues
  intro s p l n rest hl hp
  obtain ⟨a, b, c, x, y, rfl, hpair, hwords⟩ := windowWords_cases p l n (popDelivery rest s)
  obtain ⟨x, y, rfl, rfl⟩ := hpair.notices
  obtain ⟨m, hm⟩ := exec_legal hl x.instr
  obtain ⟨-, -, -, -, hml⟩ := exec_keeps hm
  obtain ⟨v, hv⟩ := exec_legal (hml hl) y.instr
  obtain ⟨t, hsteps, hag, hrest⟩ := stepsTo_window (a := a) (b := b) (c := c)
    (((Agrees.refl s).popDelivery_left rest).arbitrate_left p l _)
    (by rw [arbitrate_pending, hwords, popDelivery_pending]) hm hv
  have hall := StepsTo.head (step_window hp) hsteps
  refine ⟨x.instr, y.instr, m, v, hpair, hm, hv, ?_, ?_, t, hall.run, hrest, hag.st, hag.pos⟩
  · rw [hall.readValues_eq]
    simp [Returned.reads, Nat.add_assoc]
  · rw [hall.readValues_eq]
    intro w hw
    simp only [arbitrate_ret, Returned.reads, List.nil_append, List.mem_append, List.mem_replicate] at hw
    obtain ⟨-, rfl⟩ | ⟨-, rfl⟩ | ⟨-, rfl⟩ := hw
    · exact .inl rfl
    · exact .inr (.inl rfl)
    · exact .inr (.inr rfl)

end Sys2Proof.Machine
end

section
/-! PROOF. Linearisability (R51): the machine's steps beside the atomic operations taken one at a time, delivery by
delivery. -/

namespace Sys2Proof.Machine

/-- The machine with these deliveries to come, and a legal state of the build that agrees with it. -/
structure Lockstep (b : Build) (ds : List Delivery) (s u : State) : Prop where
  agrees : Agrees 0 s u
  legal : u.Legal
  build : u.build = b
  pending : s.pending = ds

/-- Some steps of the machine from `s` return in their reads what the operations return in theirs from `u`, and the two
are in lockstep after them, with `rest` to come. -/
def Linearises (b : Build) (rest : List Delivery) (os : List Operation) (s u : State) : Prop :=
  ∃ k vs t v, StepsTo k s vs t ∧ OperationsTo os u vs v ∧ Lockstep b rest t v

section Linearises

variable {b : Build} {rest : List Delivery} {os os' : List Operation} {s t u v : State}

/-- Two states in lockstep, with nothing done yet. -/
theorem Lockstep.linearises (h : Lockstep b rest s u) : Linearises b rest [] s u :=
  ⟨0, [], s, u, .refl s, .refl u, h⟩

/-- Steps and operations that come before. -/
theorem Linearises.prepend {k : Nat} {vs : List Int} (h : Linearises b rest os' t v) (hsteps : StepsTo k s vs t)
    (hops : OperationsTo os u vs v) : Linearises b rest (os ++ os') s u := by
  obtain ⟨k', vs', t', v', hsteps', hops', hlock⟩ := h
  exact ⟨k + k', vs ++ vs', t', v', hsteps.trans hsteps', hops.trans hops', hlock⟩

/-- A word is its operation. -/
theorem linearises_word {i : Instr} (h : Lockstep b (.word (encode i) :: rest) s u) :
    Linearises b rest [.stimulus i] s u := by
  obtain ⟨v, hv⟩ := exec_legal h.legal i
  obtain ⟨hbuild, -, -, -, hlegal⟩ := exec_keeps hv
  obtain ⟨t, ht, hag, hreads, hpending⟩ := step_word_agrees h.agrees h.pending hv
  exact ⟨1, _, t, v, .single ht hreads, .single hv rfl, hag, hlegal h.legal, hbuild.trans h.build, hpending⟩

/-- The words of some operations are those operations. -/
theorem linearises_words {is : List Instr} (h : Lockstep b (deliveriesOf is ++ rest) s u) :
    Linearises b rest (is.map .stimulus) s u := by
  induction is generalizing s u with
  | nil => exact h.linearises
  | cons i is ih =>
    obtain ⟨k, vs, t, v, hsteps, hops, hlock⟩ := linearises_word h
    exact (ih hlock).prepend hsteps hops

/-- A same-window pair with its readers is their operations in the order the arbiter gives. -/
theorem linearises_window {p : PinSample} {l : Level} {n : Nat} (h : Lockstep b (.window p l n :: rest) s u) :
    ∃ os, (Delivery.window p l n).Admits b.simulOrder os ∧ Linearises b rest os s u := by
  obtain ⟨a, c, e, x, y, rfl, hpair, hwords⟩ := windowWords_cases p l n (popDelivery rest s)
  have hlock : Lockstep b (deliveriesOf (windowInstrs a c e x y) ++ rest)
      (arbitrate p l (a + c + e) (popDelivery rest s)) u :=
    ⟨(h.agrees.popDelivery_left rest).arbitrate_left p l _, h.legal, h.build,
      by rw [arbitrate_pending, hwords, popDelivery_pending]⟩
  have hbuild : s.build = b := h.agrees.build.trans h.build
  exact ⟨_, admits_window (hbuild ▸ hpair) a c e,
    (linearises_words hlock).prepend (.single (step_window h.pending) rfl) (.refl u)⟩

/-- A delivery whose step is RESET is that operation. -/
theorem linearises_reset {d : Delivery} (h : Lockstep b (d :: rest) s u)
    (hstep : step s = .next (resetOp (popDelivery rest s))) : Linearises b rest [.reset] s u :=
  ⟨1, [], _, resetOp u, .single hstep rfl, .single rfl rfl, ⟨rfl, rfl, rfl, h.agrees.build, rfl⟩,
    (resetOp_inv u).legal, h.build, rfl⟩

/-- Notifications taken in one cycle do what their operations do one at a time. -/
theorem takeNotices_agrees (ns : List Notice) (h : Agrees 0 s u) (hl : u.Legal) :
    ∃ t v, takeNotices ns s = .next t ∧ OperationsTo ((ns.map Notice.instr).map .stimulus) u [] v ∧ Agrees 0 t v ∧
      v.Legal := by
  induction ns generalizing s u with
  | nil => exact ⟨s, u, rfl, .refl u, h, hl⟩
  | cons n ns ih =>
    obtain ⟨v, hv⟩ := exec_legal hl n.instr
    obtain ⟨-, -, -, -, hlegal⟩ := exec_keeps hv
    obtain ⟨t, ht, hag⟩ := takeNotice_agrees h.beginCycle_right (exec_instr n u ▸ hv)
    obtain ⟨t', v', ht', hops, hag', hl'⟩ := ih hag (hlegal hl)
    refine ⟨t', v', takeNotices_cons_eq_next.2 ⟨t, ht, ht'⟩, ?_, hag', hl'⟩
    simpa [exec_instr_reads hv] using OperationsTo.head (o := .stimulus n.instr) hv hops

/-- Notifications return no position, and keep the queue and the build. -/
theorem takeNotices_keeps_queue {ns : List Notice} (hret : s.ret.reads = []) (h : takeNotices ns s = .next t) :
    t.ret.reads = [] ∧ t.pending = s.pending ∧ t.build = s.build := by
  refine takeNotices_keeps_of_mem (P := fun a => a.ret.reads = [] ∧ a.pending = s.pending ∧ a.build = s.build)
    (fun n _ a c ⟨ha, hp, hb⟩ hn => ?_) ⟨hret, rfl, rfl⟩ h
  obtain ⟨hret', hp', hb'⟩ := takeNotice_keeps hn
  exact ⟨hret' ha, hp'.trans hp, hb'.trans hb⟩

/-- A cycle without RESET is the operations of its notifications, in the order the machine takes them. -/
theorem linearises_cycle {c : PortIn} (hr : c.rst = false) (h : Lockstep b (.cycle c :: rest) s u) :
    ∃ os, (Delivery.cycle c).Admits b.simulOrder os ∧ Linearises b rest os s u := by
  obtain ⟨t, v, ht, hops, hag, hl⟩ := takeNotices_agrees (cycleNotices c (popDelivery rest s))
    (h.agrees.popDelivery_left rest).beginCycle_left h.legal
  obtain ⟨hret, hpending, hbuild⟩ := takeNotices_keeps_queue rfl ht
  have hs : (popDelivery rest s).build = b := h.agrees.build.trans h.build
  have hstep : step s = .next t := by simpa [step, h.pending, deliver, portCycle, hr] using ht
  exact ⟨_, hs ▸ admits_cycle hr (popDelivery rest s), 1, [], t, v, .single hstep hret, hops, hag, hl,
    hag.build.symm.trans (hbuild.trans hs), hpending⟩

/-- A word that is not RESERVED is that of an operation. -/
theorem eq_encode_of_notReserved {w : Byte} (h : (Delivery.word w).notReserved = true) : ∃ i, w = encode i := by
  have key : ∀ w : Byte, (Delivery.word w).notReserved = true → (decode w).toOption.isSome = true := by decide
  cases hw : decode w with
  | ok i => exact ⟨i, (encode_of_decode hw).symm⟩
  | error why => simpa [hw, Except.toOption] using key w h

/-- Each delivery is its operations in an order R50 admits. -/
theorem linearises_delivery {d : Delivery} (hd : d.notReserved = true) (h : Lockstep b (d :: rest) s u) :
    ∃ os, d.Admits b.simulOrder os ∧ Linearises b rest os s u := by
  cases d with
  | word w =>
    obtain ⟨i, rfl⟩ := eq_encode_of_notReserved hd
    exact ⟨_, ⟨i, decode_encode i, rfl⟩, linearises_word h⟩
  | reset => exact ⟨[.reset], rfl, linearises_reset h (by simp only [step, h.pending, deliver])⟩
  | window p l n => exact linearises_window h
  | cycle c =>
    cases hr : c.rst with
    | false => exact linearises_cycle hr h
    | true =>
      exact ⟨[.reset], by simp only [Delivery.Admits, hr, if_true],
        linearises_reset h (by simp only [step, h.pending, deliver, portCycle, hr, if_true])⟩

/-- A trace is its operations, delivery by delivery. -/
theorem linearises_trace {ds : List Delivery} (hds : ∀ d ∈ ds, d.notReserved = true) (h : Lockstep b ds s u) :
    ∃ orders, List.Forall₂ (Delivery.Admits b.simulOrder) ds orders ∧ Linearises b [] orders.flatten s u := by
  induction ds generalizing s u with
  | nil => exact ⟨[], .nil, h.linearises⟩
  | cons d ds ih =>
    obtain ⟨hd, hds⟩ := List.forall_mem_cons.1 hds
    obtain ⟨os, hos, k, vs, t, v, hsteps, hops, hlock⟩ := linearises_delivery hd h
    obtain ⟨orders, horders, hlin⟩ := ih hds hlock
    exact ⟨os :: orders, .cons hos horders, hlin.prepend hsteps hops⟩

end Linearises

/-- Settles O52: the trace beside its operations, both from the state given. -/
theorem deliveriesLinearise : Obligations.DeliveriesLinearise := by
  unfold Obligations.DeliveriesLinearise
  intro s hl hds
  obtain ⟨orders, horders, k, vs, t, v, hsteps, hops, hlock⟩ := linearises_trace hds ⟨.refl s, hl, rfl, rfl⟩
  obtain ⟨hlength, hreads, hlast⟩ := hops.trail
  refine ⟨k, t, orders, horders, hsteps.run, hlock.pending, hlength, hsteps.readValues_eq.trans hreads.symm, ?_⟩
  intro u hu
  obtain rfl : v = u := Option.some.inj (hlast.symm.trans hu)
  obtain ⟨hst, hpos, hdiag, -, hindex⟩ := hlock.agrees
  exact ⟨hst, hpos, hdiag, hindex⟩

end Sys2Proof.Machine
end

section
/-! PROOF. The stimulus words (R60 to R63, R68): the fields of an encoded instruction, the words that decode, and why
the others do not. -/

namespace Sys2Proof

open Machine

/-- The fields of an instruction's word are the instruction's (R61 to R63). -/
@[simp] theorem fieldsOf_encode (i : Instr) : fieldsOf (encode i) = i.fields := by
  cases i with
  | enc p => obtain rfl | rfl | rfl | rfl := sample_cases p <;> rfl
  | btn l => obtain rfl | rfl := level_cases l <;> rfl
  | read => rfl

/-- A word decodes to an instruction exactly when it is its encoding. -/
theorem decode_eq_ok_iff {w : Byte} {i : Instr} : decode w = .ok i ↔ w = encode i :=
  ⟨fun h => (encode_of_decode h).symm, fun h => h ▸ decode_encode i⟩

/-- The test of R60 to R63 that each reason to be RESERVED names. -/
def Reserved.test : Reserved → StimFields → Bool
  | .opZero      => StimFields.opInUse
  | .rsvNonzero  => StimFields.rsvZero
  | .btnOperand  => StimFields.btnOperandOk
  | .readOperand => StimFields.readOperandOk

/-- Well-formed fields fail no test. -/
theorem Reserved.test_of_wellFormed {f : StimFields} (h : f.wellFormed = true) (why : Reserved) :
    why.test f = true := by
  simp only [StimFields.wellFormed, Bool.and_eq_true] at h
  obtain ⟨⟨⟨hop, hrsv⟩, hbtn⟩, hread⟩ := h
  cases why <;> assumption

/-- Bit 1 of an operand, as the decoder and as R62's test read it. -/
theorem operand_bit_one_eq_zero_iff (opd : BitVec 2) : opd.extractLsb' 1 1 = 0#1 ↔ opd[1] = false := by
  obtain rfl | rfl | rfl | rfl := sample_cases opd <;> decide

/-- The reason the decoder gives is a test the word's fields fail. -/
theorem decode_error_test {w : Byte} {why : Reserved} (h : decode w = .error why) :
    why.test (fieldsOf w) = false := by
  unfold decode at h
  generalize fieldsOf w = f at h ⊢
  obtain ⟨op, rsv, opd⟩ := f
  dsimp only at h
  split at h
  next hop =>
    cases h
    simp [Reserved.test, StimFields.opInUse, hop]
  split at h
  next hrsv =>
    cases h
    simpa [Reserved.test, StimFields.rsvZero] using hrsv
  split at h
  next => cases h
  split at h
  next hbtn =>
    split at h
    next => cases h
    next hopd =>
      cases h
      simpa [Reserved.test, StimFields.btnOperandOk, hbtn, operand_bit_one_eq_zero_iff] using hopd
  split at h
  next => cases h
  next hzero _ henc hbtn hopd =>
    cases h
    have hread : op = 0b11 := by
      obtain h | h | h | h := sample_cases op
      · exact absurd h hzero
      · exact absurd h henc
      · exact absurd h hbtn
      · exact h
    simpa [Reserved.test, StimFields.readOperandOk, hread] using hopd

/-- A word decodes exactly when its fields are well-formed. -/
theorem wellFormed_fieldsOf_iff {w : Byte} : (fieldsOf w).wellFormed = true ↔ ∃ i, decode w = .ok i := by
  constructor
  · intro h
    cases hw : decode w with
    | ok i => exact ⟨i, rfl⟩
    | error why => simpa [decode_error_test hw] using Reserved.test_of_wellFormed h why
  · rintro ⟨i, hi⟩
    rw [decode_eq_ok_iff.1 hi, fieldsOf_encode]
    exact Laws.instr_wellFormed i

/-- Settles O3: a word decodes to an instruction exactly when it is its encoding, whose fields are the instruction's. -/
theorem decodeEncodeAgree : Obligations.DecodeEncodeAgree := by
  unfold Obligations.DecodeEncodeAgree
  refine ⟨fun i _ => decode_encode i, fun w i h => ?_, fun w => wellFormed_fieldsOf_iff⟩
  obtain rfl := decode_eq_ok_iff.1 h
  exact ⟨rfl, (fieldsOf_encode i).symm, Laws.instr_wellFormed i⟩

/-- The word of every operation is one of the seven of R68. -/
theorem encode_mem_sevenWords (i : Instr) :
    encode i ∈ [0x40#8, 0x41#8, 0x42#8, 0x43#8, 0x80#8, 0x81#8, 0xC0#8] := by
  cases i with
  | enc p => obtain rfl | rfl | rfl | rfl := sample_cases p <;> decide
  | btn l => obtain rfl | rfl := level_cases l <;> decide
  | read => decide

/-- Every word but those seven is RESERVED (R68). -/
theorem decode_reserved {w : Byte} (hw : w ∉ [0x40#8, 0x41#8, 0x42#8, 0x43#8, 0x80#8, 0x81#8, 0xC0#8]) :
    ∃ why, decode w = .error why := by
  cases h : decode w with
  | ok i => exact absurd (encode_of_decode h ▸ encode_mem_sevenWords i) hw
  | error why => exact ⟨why, rfl⟩

/-- The word of an ENC_EDGE is `0x40` with the sample in its low bits (R61). -/
theorem encode_enc_eq_or (p : PinSample) : encode (.enc p) = 0x40#8 ||| p.zeroExtend 8 := by
  obtain rfl | rfl | rfl | rfl := sample_cases p <;> rfl

/-- The word of a BTN_EDGE is `0x80` with the level in bit 0 (R62). -/
theorem encode_btn_eq_or (l : Level) : encode (.btn l) = 0x80#8 ||| l.zeroExtend 8 := by
  obtain rfl | rfl := level_cases l <;> rfl

/-- Settles O1: the words the rule lists are the encodings, and no other word decodes. -/
theorem sevenWordsDecode : Obligations.SevenWordsDecode := by
  unfold Obligations.SevenWordsDecode
  exact ⟨fun p => decode_eq_ok_iff.2 (encode_enc_eq_or p).symm, fun l => decode_eq_ok_iff.2 (encode_btn_eq_or l).symm,
    decode_encode .read, fun w hw => decode_reserved hw⟩

/-- Settles O2. -/
theorem specWordsDecode : Obligations.SpecWordsDecode := by
  unfold Obligations.SpecWordsDecode
  exact ⟨rfl, rfl, rfl, rfl, rfl, rfl, rfl, rfl, rfl, rfl⟩

/-- Settles O5. -/
theorem pseudoInstructionWords : Obligations.PseudoInstructionWords := by
  unfold Obligations.PseudoInstructionWords
  exact ⟨rfl, rfl, rfl, rfl, rfl⟩

end Sys2Proof
end

section
/-! PROOF. A step over a RESERVED word (R69), and a port-level cycle with one notification (R70). -/

namespace Sys2Proof.Machine

/-- A step whose next delivery is a word that does not decode is refused under the word and the reason. -/
theorem step_reserved {s : State} {w : Byte} {rest : List Delivery} {why : Reserved}
    (hp : s.pending = .word w :: rest) (hw : decode w = .error why) : step s = .refused (.reservedWord w why) := by
  simp only [step, hp, deliver, runWord, hw]

/-- Settles O14. -/
theorem reservedWordIsRefused : Obligations.ReservedWordIsRefused := by
  unfold Obligations.ReservedWordIsRefused
  intro s w rest hp hw
  obtain ⟨why, hwhy⟩ := decode_reserved hw
  exact ⟨why, step_reserved hp hwhy⟩

/-- Taking one notification alone. -/
theorem takeNotices_singleton (n : Notice) (s : State) : takeNotices [n] s = takeNotice n s := by
  cases n with
  | enc p => exact takeNotices_enc p s
  | btn l => rfl

/-- A step over a cycle with a single notification is the notification's operation. -/
theorem step_cycle_singleton {s : State} {c : PortIn} {rest : List Delivery} {n : Notice}
    (hp : s.pending = .cycle c :: rest) (hr : c.rst = false) (hn : cycleNotices c (popDelivery rest s) = [n]) :
    step s = exec n.instr (popDelivery rest s) := by
  simp [step, hp, deliver, portCycle, hr, hn, takeNotices_singleton, exec_instr]

/-- A cycle with a single notification steps as the word of the notification's operation does, to the last field. -/
theorem step_cycle_eq_step_word {s : State} {c : PortIn} {rest : List Delivery} {n : Notice} (hr : c.rst = false)
    (hn : ∀ t, cycleNotices c t = [n]) :
    step { s with pending := .cycle c :: rest } = step { s with pending := .word (encode n.instr) :: rest } := by
  rw [step_cycle_singleton rfl hr (hn _), step_word rfl (decode_encode n.instr)]
  rfl

/-- Settles O53: cycle and word both run the notification's operation on the same state. -/
theorem cycleWithOneNotification : Obligations.CycleWithOneNotification := by
  unfold Obligations.CycleWithOneNotification
  intro s c rest hr
  constructor
  · intro henc hbtn
    exact step_cycle_eq_step_word (n := .enc c.encSample) hr fun t => by simp [cycleNotices, henc, hbtn]
  · intro henc hbtn
    exact step_cycle_eq_step_word (n := .btn c.btnLevel) hr fun t => by simp [cycleNotices, henc, hbtn]

end Sys2Proof.Machine
end

section
/-! PROOF. The two fields of a table entry (R67). -/

namespace Sys2Proof.Machine

/-- Masking with `STATE_MASK` leaves bits [3:0]. -/
theorem entryNxt_eq (e : Byte) : entryNxt e = (e.extractLsb' 0 4).zeroExtend 8 := by
  apply BitVec.eq_of_toNat_eq
  have hmask : (entryNxt e).toNat = e.toNat % 2 ^ 4 := Nat.and_two_pow_sub_one_eq_mod e.toNat 4
  simp only [hmask, BitVec.truncate_eq_setWidth, BitVec.toNat_setWidth, BitVec.extractLsb'_toNat]
  omega

/-- Masking with `EVENT_MASK` and shifting leaves bits [5:4]. -/
theorem entryEvc_eq (e : Byte) : entryEvc e = e.extractLsb' 4 2 := by
  ext i hi
  obtain rfl | rfl : i = 0 ∨ i = 1 := by omega
  · simp [entryEvc, eventMask]
  · simp [entryEvc, eventMask]

/-- Settles O4. -/
theorem entryFieldsAreBitRanges : Obligations.EntryFieldsAreBitRanges := by
  unfold Obligations.EntryFieldsAreBitRanges
  intro e
  rw [entryEvc_eq]
  exact ⟨entryNxt_eq e, rfl, fun h => h ▸ rfl, fun h => h ▸ rfl, fun h => h ▸ rfl⟩

end Sys2Proof.Machine
end

section
/-! PROOF. The assembler's lines (R71): comments, trailing blanks, and the line of each instruction. -/

namespace Sys2Proof.Machine

/-- A comment ends the line where it begins, wherever that is (log entry 16). -/
theorem stripComment_append_comment (line comment : List Char) :
    stripComment (line ++ ';' :: comment) = stripComment line := by
  induction line with
  | nil => rfl
  | cons c cs ih => simp [stripComment, ih]

/-- A line with a comment behind it is read as the line. -/
theorem parseLine_append_comment (line comment : List Char) :
    parseLine (line ++ ';' :: comment) = parseLine line := by
  simp only [parseLine, stripComment_append_comment]

/-- Each instruction's line is read back, also with a blank behind it. -/
theorem parseLine_printInstr (i : Instr) :
    parseLine (printInstr i) = some [i] ∧ parseLine (printInstr i ++ [' ']) = some [i] := by
  cases i with
  | enc p => obtain rfl | rfl | rfl | rfl := sample_cases p <;> exact ⟨rfl, rfl⟩
  | btn l => obtain rfl | rfl := level_cases l <;> exact ⟨rfl, rfl⟩
  | read => exact ⟨rfl, rfl⟩

/-- Settles O6: the comment is cut off, and the line before it is one of finitely many. -/
theorem assemblerReadsLines : Obligations.AssemblerReadsLines := by
  unfold Obligations.AssemblerReadsLines
  refine ⟨fun i comment => ?_, fun i => (parseLine_printInstr i).1, fun b a => ?_, fun comment => ?_⟩
  · calc parseLine (printInstr i ++ [' ', ';'] ++ comment)
        = parseLine ((printInstr i ++ [' ']) ++ ';' :: comment) := by simp
      _ = parseLine (printInstr i ++ [' ']) := parseLine_append_comment _ comment
      _ = some [i] := (parseLine_printInstr i).2
  · obtain rfl | rfl := level_cases b <;> obtain rfl | rfl := level_cases a <;> rfl
  · exact parseLine_append_comment [] comment

end Sys2Proof.Machine
end

section
/-! PROOF. The decoder (40_decoder.md): what ENC_EDGE does with a cell of either table (R83, R87 to R89). -/

namespace Sys2Proof.Machine

/-! ### The state after an ENC_EDGE -/

@[simp] theorem posAfter_none (w : Nat) (pos : Int) : posAfter w .none pos = pos := rfl

@[simp] theorem stepRecords_none (obs : Bool) (pos : Int) : stepRecords obs .none pos = [] := by
  cases obs <;> rfl

@[simp] theorem encNext_st (s : State) (c : Byte) (ev : StepEvent) : (encNext s c ev).st = c := rfl

@[simp] theorem encNext_ret (s : State) (c : Byte) (ev : StepEvent) : (encNext s c ev).ret = .event ev := rfl

@[simp] theorem encNext_pos (s : State) (c : Byte) (ev : StepEvent) :
    (encNext s c ev).pos = posAfter s.build.posWidth ev s.pos := rfl

@[simp] theorem encNext_build (s : State) (c : Byte) (ev : StepEvent) : (encNext s c ev).build = s.build := rfl

/-- A cell without an event leaves no record. -/
@[simp] theorem encNext_none_diag (s : State) (c : Byte) : (encNext s c .none).diag = s.diag := by
  simp [encNext]

/-! ### ENC_EDGE from a cell of a table -/

/-- ENC_EDGE does what its cell of `T_FULL` says. -/
theorem exec_full {s : State} {q : FullState} (hm : s.build.mode = .full) (hs : s.st = q.code) (p : PinSample) :
    exec (.enc p) s = .next (encNext s (fullCell q p).1.code (fullCell q p).2) :=
  execEnc_eq (process_full hm hs p)

/-- ENC_EDGE goes to the state a cell of `T_FULL` is known to name, with the event it is known to hold. -/
theorem exec_full_cell {s : State} {q r : FullState} {p : PinSample} {ev : StepEvent} (hm : s.build.mode = .full)
    (hs : s.st = q.code) (hcell : fullCell q p = (r, ev)) : exec (.enc p) s = .next (encNext s r.code ev) := by
  rw [exec_full hm hs p, hcell]

/-- ENC_EDGE does what its cell of `T_HALF` says. -/
theorem exec_half {s : State} {q : HalfState} (hm : s.build.mode = .half) (hs : s.st = q.code) (p : PinSample) :
    exec (.enc p) s = .next (encNext s (halfCell q p).1.code (halfCell q p).2) :=
  execEnc_eq (process_half hm hs p)

/-- ENC_EDGE goes to the state a cell of `T_HALF` is known to name, with the event it is known to hold. -/
theorem exec_half_cell {s : State} {q r : HalfState} {p : PinSample} {ev : StepEvent} (hm : s.build.mode = .half)
    (hs : s.st = q.code) (hcell : halfCell q p = (r, ev)) : exec (.enc p) s = .next (encNext s r.code ev) := by
  rw [exec_half hm hs p, hcell]

/-- An ENC_EDGE of a full-step build that answers a next state did what a cell of `T_FULL` says. -/
theorem exec_full_inv {s t : State} {p : PinSample} (hm : s.build.mode = .full) (h : exec (.enc p) s = .next t) :
    ∃ q, s.st = q.code ∧ t = encNext s (fullCell q p).1.code (fullCell q p).2 := by
  obtain ⟨hl, -⟩ := execEnc_cases h
  obtain ⟨q, hq⟩ := legal_full_iff.1 (hm ▸ hl : legalCode .full s.st = true)
  exact ⟨q, hq, Host.Outcome.next.inj (h.symm.trans (exec_full hm hq p))⟩

/-- An ENC_EDGE of a half-step build that answers a next state did what a cell of `T_HALF` says. -/
theorem exec_half_inv {s t : State} {p : PinSample} (hm : s.build.mode = .half) (h : exec (.enc p) s = .next t) :
    ∃ q, s.st = q.code ∧ t = encNext s (halfCell q p).1.code (halfCell q p).2 := by
  obtain ⟨hl, -⟩ := execEnc_cases h
  obtain ⟨q, hq⟩ := legal_half_iff.1 (hm ▸ hl : legalCode .half s.st = true)
  exact ⟨q, hq, Host.Outcome.next.inj (h.symm.trans (exec_half hm hq p))⟩

/-- Settles O16: the entry read is that of the cell, and ENC_EDGE does what the cell says. -/
theorem fullStepEncEdge : Obligations.FullStepEncEdge := by
  unfold Obligations.FullStepEncEdge
  exact fun s q p hm hs => ⟨tableRead_full q p, exec_full hm hs p⟩

/-- Settles O17: the entry read is that of the cell, and ENC_EDGE does what the cell says. -/
theorem halfStepEncEdge : Obligations.HalfStepEncEdge := by
  unfold Obligations.HalfStepEncEdge
  exact fun s q p hm hs => ⟨tableRead_half q p, exec_half hm hs p⟩

end Sys2Proof.Machine
end

section
/-! PROOF. The cells of `T_FULL` as moves along the gray-code cycle of a direction (R82 to R85, R91 to R94). -/

namespace Sys2Proof.Machine

/-! ### The gray-code cycle of a direction -/

/-- A double jump is no hold. -/
theorem ne_of_doubleJump {c p : PinSample} (h : doubleJump c p) : p ≠ c := by
  revert c p; decide

/-- A double jump leads back by a double jump. -/
theorem doubleJump_back (p : PinSample) : doubleJump (p ^^^ 0b11) p := by
  revert p; decide

/-- Against a code of a direction's cycle a sample is the same code, the next, the one before, or a double jump. -/
theorem Dir.class_cases (d : Dir) (c p : PinSample) : p = c ∨ p = d.succ c ∨ d.succ p = c ∨ doubleJump c p := by
  cases d <;> revert c p <;> decide

/-- The last code of a direction's cycle before the rest code. -/
abbrev Dir.lastCode (d : Dir) : PinSample := d.succ (d.succ (d.succ 0b00))

@[simp] theorem Dir.state_rest (d : Dir) : d.state 0b00 = .start := by cases d <;> rfl

/-- The state of a direction at a code has that code as its pins. -/
@[simp] theorem fullPins_state (d : Dir) (c : PinSample) : fullPins (d.state c) = c := by
  cases d <;> obtain rfl | rfl | rfl | rfl := sample_cases c <;> rfl

/-- Only the rest code has the state START. -/
@[simp] theorem Dir.state_eq_start_iff {d : Dir} {c : PinSample} : d.state c = .start ↔ c = 0b00 := by
  cases d <;> revert c <;> decide

/-- The first code of a direction's cycle is not the rest code. -/
theorem Dir.succ_rest_ne (d : Dir) : d.succ 0b00 ≠ 0b00 := by cases d <;> decide

/-- The last sub-state of a direction is no state of the other direction. -/
theorem Dir.state_eq_last_iff {d d' : Dir} {c : PinSample} :
    d'.state c = d.state d.lastCode ↔ d' = d ∧ c = d.lastCode := by
  cases d <;> cases d' <;> revert c <;> decide

/-- A completed step has an event. -/
theorem Dir.event_ne_none (d : Dir) : d.event ≠ .none := by cases d <;> exact StepEvent.noConfusion

@[simp] theorem Dir.event_inj {d d' : Dir} : d.event = d'.event ↔ d = d' := by
  cases d <;> cases d' <;> simp [Dir.event]

/-! ### The cells -/

/-- The pin code of a state holds it. -/
theorem fullCell_hold (q : FullState) : fullCell q (fullPins q) = (q, .none) := by
  cases q <;> rfl

/-- A double jump goes to START. -/
theorem fullCell_doubleJump (q : FullState) : fullCell q (fullPins q ^^^ 0b11) = (.start, .none) := by
  cases q <;> rfl

/-- The state of a direction at a code is held by it. -/
theorem fullCell_state_hold (d : Dir) (c : PinSample) : fullCell (d.state c) c = (d.state c, .none) := by
  simpa using fullCell_hold (d.state c)

/-- From the state of a direction at a code a double jump goes to START. -/
theorem fullCell_state_doubleJump {d : Dir} {c p : PinSample} (h : doubleJump c p) :
    fullCell (d.state c) p = (.start, .none) := by
  obtain rfl := h
  simpa using fullCell_doubleJump (d.state c)

/-- The next code of the cycle is forward, and emits at the rest code. -/
theorem fullCell_forward (d : Dir) (c : PinSample) :
    fullCell (d.state c) (d.succ c) = (d.state (d.succ c), if d.succ c = 0b00 then d.event else .none) := by
  cases d <;> obtain rfl | rfl | rfl | rfl := sample_cases c <;> rfl

/-- From a sub-state the code before backs off. -/
theorem fullCell_backOff {d : Dir} {p : PinSample} (hc : d.succ p ≠ 0b00) :
    fullCell (d.state (d.succ p)) p = (d.state p, .none) := by
  cases d <;> revert hc p <;> decide

/-- A direction's event comes exactly from its last sub-state at the rest code. -/
theorem fullCell_event_iff {q : FullState} {p : PinSample} {d : Dir} :
    (fullCell q p).2 = d.event ↔ q = d.state d.lastCode ∧ p = 0b00 := by
  cases d <;> cases q <;> revert p <;> decide

/-- No cell of START emits. -/
theorem fullCell_start_event (p : PinSample) : (fullCell .start p).2 = .none := by
  revert p; decide

/-- START is left only by the first code of a direction. -/
theorem fullCell_start_hold {p : PinSample} (h₁ : p ≠ 0b01) (h₂ : p ≠ 0b10) :
    fullCell .start p = (.start, .none) := by
  revert p; decide

/-- A sub-state is entered exactly by its pin code, from its predecessors. -/
theorem fullCell_enters_iff {q r : FullState} {p : PinSample} (hq : q ≠ .start) :
    (fullCell r p).1 = q ↔ p = fullPins q ∧ r ∈ fullPreds q := by
  constructor
  · rintro rfl
    cases r <;> revert hq p <;> decide
  · rintro ⟨rfl, hr⟩
    cases q <;> revert hr <;> cases r <;> decide

end Sys2Proof.Machine
end

section
/-! PROOF. The cells of `T_HALF` as the four legs between its rest states (R87, R91 to R94). -/

namespace Sys2Proof.Machine

/-- The pin code of a state holds it. -/
theorem halfCell_hold (q : HalfState) : halfCell q (halfPins q) = (q, .none) := by
  cases q <;> rfl

section Leg
variable {g : HalfLeg} (hg : g ∈ halfLegs)
include hg

/-- A leg runs between the two rest states. -/
theorem leg_rests : (g.origin = .start ∨ g.origin = .startM) ∧ (g.target = .start ∨ g.target = .startM) := by
  revert g; decide

/-- The sub-state of a leg has the first code of its direction after the rest code it left. -/
theorem leg_subPins : halfPins g.sub = g.dir.succ (halfPins g.origin) := by
  revert g; decide

/-- A leg's rest state has another code than its sub-state, and is a double jump from the one it makes for. -/
theorem leg_pins : halfPins g.origin ≠ halfPins g.sub ∧ doubleJump (halfPins g.origin) (halfPins g.target) := by
  revert g; decide

/-- The first code of a direction enters its leg. -/
theorem halfCell_enter : halfCell g.origin (g.dir.succ (halfPins g.origin)) = (g.sub, .none) := by
  revert g; decide

/-- From a rest state a double jump goes to the other rest state. -/
theorem halfCell_cross {p : PinSample} (h : doubleJump (halfPins g.origin) p) :
    halfCell g.origin p = (g.target, .none) := by
  revert g p; decide

/-- The code of the rest state a leg makes for is forward, and emits. -/
theorem halfCell_forward : halfCell g.sub (halfPins g.target) = (g.target, g.dir.event) := by
  revert g; decide

/-- Every sample of a leg but its own code and the one ahead goes back to the rest state it left. -/
theorem halfCell_back {p : PinSample} (hhold : p ≠ halfPins g.sub) (hahead : p ≠ halfPins g.target) :
    halfCell g.sub p = (g.origin, .none) := by
  revert g p; decide

end Leg

/-- No cell of a rest state emits. -/
theorem halfCell_rest_event {q : HalfState} (hq : q = .start ∨ q = .startM) (p : PinSample) :
    (halfCell q p).2 = .none := by
  obtain rfl | rfl := hq <;> revert p <;> decide

/-- A sub-state is entered exactly by its pin code, from its predecessors. -/
theorem halfCell_enters_iff {q r : HalfState} {p : PinSample} (hq : q ≠ .start) (hqM : q ≠ .startM) :
    (halfCell r p).1 = q ↔ p = halfPins q ∧ r ∈ halfPreds q := by
  constructor
  · rintro rfl
    cases r <;> revert hq hqM p <;> decide
  · rintro ⟨rfl, hr⟩
    cases q <;> revert hr hqM hq <;> cases r <;> decide

/-- The cells that emit. -/
theorem halfCell_event_iff (q : HalfState) (p : PinSample) :
    ((halfCell q p).2 = .cw ↔ (q = .cwBegin ∧ p = 0b11) ∨ (q = .cwBeginM ∧ p = 0b00)) ∧
    ((halfCell q p).2 = .ccw ↔ (q = .ccwBegin ∧ p = 0b11) ∨ (q = .ccwBeginM ∧ p = 0b00)) := by
  cases q <;> revert p <;> decide

/-- START is entered by every sample but 11. -/
theorem exists_halfCell_start_iff {p : PinSample} : (∃ r, (halfCell r p).1 = .start) ↔ p ≠ 0b11 := by
  constructor
  · rintro ⟨r, hr⟩ rfl
    cases r <;> cases hr
  · intro hp
    obtain rfl | rfl | rfl | rfl := sample_cases p
    · exact ⟨.start, rfl⟩
    · exact ⟨.ccwBegin, rfl⟩
    · exact ⟨.cwBegin, rfl⟩
    · exact absurd rfl hp

/-- START_M is entered by every sample but 00. -/
theorem exists_halfCell_startM_iff {p : PinSample} : (∃ r, (halfCell r p).1 = .startM) ↔ p ≠ 0b00 := by
  constructor
  · rintro ⟨r, hr⟩ rfl
    cases r <;> cases hr
  · intro hp
    obtain rfl | rfl | rfl | rfl := sample_cases p
    · exact absurd rfl hp
    · exact ⟨.cwBeginM, rfl⟩
    · exact ⟨.ccwBeginM, rfl⟩
    · exact ⟨.startM, rfl⟩

/-- The first sample of a direction away from a rest state is that of a leg. -/
theorem exists_leg {q : HalfState} {p : PinSample} (hq : q = .start ∨ q = .startM) (hp : p = 0b01 ∨ p = 0b10) :
    ∃ g ∈ halfLegs, g.origin = q ∧ p = g.dir.succ (halfPins g.origin) := by
  obtain rfl | rfl := hq <;> obtain rfl | rfl := hp <;> decide

/-- A sample of a rest state that begins no sequence is its own code or a double jump. -/
theorem rest_sample_cases {q : HalfState} {p : PinSample} (hq : q = .start ∨ q = .startM) (h₁ : p ≠ 0b01)
    (h₂ : p ≠ 0b10) : p = halfPins q ∨ doubleJump (halfPins q) p := by
  obtain rfl | rfl := hq <;> revert p <;> decide

end Sys2Proof.Machine
end

section
/-! PROOF. The classes of the cells: holds, forward cells, back-offs and double jumps (R84, R85, R87, R91, R94, R97). -/

namespace Sys2Proof.Machine

/-- Settles O20: each class is a law of the cells of a direction; START is the state of both directions at 00. -/
theorem fullStepCellClasses : Obligations.FullStepCellClasses := by
  unfold Obligations.FullStepCellClasses
  refine ⟨fun s d c p hm hc hs => ⟨_, exec_full hm hs p, ?_, ?_, ?_, ?_⟩,
    fun s p hm hs => ⟨_, exec_full hm hs p, ?_, ?_, ?_, ?_, ?_⟩⟩
  · rintro rfl
    simp [fullCell_state_hold, hs]
  · rintro rfl
    simp [fullCell_forward]
  · rintro rfl
    simp [fullCell_backOff hc]
  · intro hjump
    simp [fullCell_state_doubleJump hjump]
  · rw [encNext_ret, fullCell_start_event]
  · rintro rfl
    exact hs.symm
  · rintro rfl; rfl
  · rintro rfl; rfl
  · rintro rfl
    exact hs.symm

/-- Settles O21. -/
theorem halfStepCellClasses : Obligations.HalfStepCellClasses := by
  unfold Obligations.HalfStepCellClasses
  intro s g p hg hm
  refine ⟨fun hs => ⟨_, exec_half hm hs p, ?_, ?_, ?_⟩, fun hs => ⟨_, exec_half hm hs p, ?_, ?_, ?_, ?_⟩⟩
  · rintro rfl
    simp [halfCell_hold, hs]
  · rintro rfl
    simp [halfCell_forward hg]
  · intro hhold hahead
    simp [halfCell_back hg hhold hahead]
  · rw [encNext_ret, halfCell_rest_event (leg_rests hg).1]
  · rintro rfl
    simp [halfCell_hold, hs]
  · rintro rfl
    simp [halfCell_enter hg]
  · intro hjump
    simp [halfCell_cross hg hjump]

/-- Settles O22. -/
theorem fullStepDoubleJumpGoesToStart : Obligations.FullStepDoubleJumpGoesToStart := by
  unfold Obligations.FullStepDoubleJumpGoesToStart
  rintro s q p hm hs rfl
  exact ⟨_, exec_full_cell hm hs (fullCell_doubleJump q), by simp⟩

/-- Settles O23. -/
theorem doubleJumpNeverEmits : Obligations.DoubleJumpNeverEmits := by
  unfold Obligations.DoubleJumpNeverEmits
  constructor
  · rintro s q p hm hs rfl
    exact ⟨_, exec_full_cell hm hs (fullCell_doubleJump q), by simp⟩
  · rintro s q p hm hs rfl
    refine ⟨_, exec_half hm hs _, ?_⟩
    cases q <;> exact ⟨rfl, rfl, rfl⟩

/-- Settles O24. -/
theorem holdChangesNothing : Obligations.HoldChangesNothing := by
  unfold Obligations.HoldChangesNothing
  refine ⟨fun s q p hm hs hp => ?_, fun s q p hm hs hp => ?_⟩
  · have hcell : fullCell q p = (q, .none) := by
      obtain rfl | ⟨rfl, rfl⟩ := hp
      · exact fullCell_hold q
      · exact fullCell_doubleJump .start
    exact ⟨_, exec_full_cell hm hs hcell, by simp [hs]⟩
  · exact ⟨_, exec_half_cell hm hs (hp ▸ halfCell_hold q), by simp [hs]⟩

/-- Settles O27: a sample that is not the next code is of one of the other three classes; in half-step mode it is the
leg's own code or one that goes back, and in a rest state its own code or a double jump. -/
theorem illegalTransitionEmitsNothing : Obligations.IllegalTransitionEmitsNothing := by
  unfold Obligations.IllegalTransitionEmitsNothing
  refine ⟨fun s d c p hm hc hs hnext => ?_, fun s p hm hs h₁ h₂ => ?_, fun s g p hg hm hs hahead => ?_,
    fun s q p hm hq hs h₁ h₂ => ?_⟩
  · obtain rfl | rfl | rfl | hjump := d.class_cases c p
    · exact ⟨_, exec_full_cell hm hs (fullCell_state_hold d p), by simp [hs]⟩
    · exact absurd rfl hnext
    · exact ⟨_, exec_full_cell hm hs (fullCell_backOff hc), by simp⟩
    · exact ⟨_, exec_full_cell hm hs (fullCell_state_doubleJump hjump), by simp [hjump]⟩
  · exact ⟨_, exec_full_cell hm hs (fullCell_start_hold h₁ h₂), by simp⟩
  · by_cases hhold : p = halfPins g.sub
    · exact ⟨_, exec_half_cell hm hs (hhold ▸ halfCell_hold g.sub), by simp [hhold, hs]⟩
    · exact ⟨_, exec_half_cell hm hs (halfCell_back hg hhold hahead), by simp [hhold, (leg_rests hg).1]⟩
  · obtain hhold | hjump := rest_sample_cases hq h₁ h₂
    · exact ⟨_, exec_half_cell hm hs (hhold ▸ halfCell_hold q), by simp [hhold, hs]⟩
    · obtain ⟨g, hg, rfl, -⟩ := exists_leg hq (.inl rfl)
      refine ⟨_, exec_half_cell hm hs (halfCell_cross hg hjump), rfl, rfl, .inr ⟨ne_of_doubleJump hjump, ?_⟩⟩
      simpa using (leg_rests hg).2

end Sys2Proof.Machine
end

section
/-! PROOF. Where each sub-state is entered, and which cells emit (R92, R93). -/

namespace Sys2Proof.Machine

/-- Some ENC_EDGE of a half-step build enters a state by a sample exactly when some cell of that sample names it. -/
theorem exists_exec_half_iff {p : PinSample} {q : HalfState} :
    (∃ s t : State, s.build.mode = .half ∧ exec (.enc p) s = .next t ∧ t.st = q.code) ↔
      ∃ r, (halfCell r p).1 = q := by
  constructor
  · rintro ⟨s, t, hm, h, ht⟩
    obtain ⟨r, -, rfl⟩ := exec_half_inv hm h
    exact ⟨r, HalfState.code_inj.1 ht⟩
  · rintro ⟨r, rfl⟩
    exact ⟨{ State.resetFor { Config.defaultBuild with mode := .half } with st := r.code }, _, rfl,
      exec_half rfl rfl p, rfl⟩

/-- Settles O25: `st` is entered by the cell read; START in full-step mode by the double jump onto any sample. -/
theorem subStateEnteredByPinCode : Obligations.SubStateEnteredByPinCode := by
  unfold Obligations.SubStateEnteredByPinCode
  refine ⟨fun s t q p hm h hq => ?_, fun s t q p hm h hq hqM => ?_, fun p => ?_, fun p => ?_, fun p => ?_⟩
  · obtain ⟨r, hr, rfl⟩ := exec_full_inv hm h
    simp [hr, fullCell_enters_iff hq]
  · obtain ⟨r, hr, rfl⟩ := exec_half_inv hm h
    simp [hr, halfCell_enters_iff hq hqM]
  · exact ⟨Dir.cw.state (p ^^^ 0b11), fun s hm hs =>
      ⟨_, exec_full_cell hm hs (fullCell_state_doubleJump (doubleJump_back p)), rfl⟩⟩
  · rw [exists_exec_half_iff, exists_halfCell_start_iff]
  · rw [exists_exec_half_iff, exists_halfCell_startM_iff]

/-- Settles O26: the event returned is that of the cell read. -/
theorem eventCells : Obligations.EventCells := by
  unfold Obligations.EventCells
  refine ⟨fun s t p hm h => ?_, fun s t p hm h => ?_⟩
  · obtain ⟨q, hq, rfl⟩ := exec_full_inv hm h
    have hevent (d : Dir) : (encNext s (fullCell q p).1.code (fullCell q p).2).ret = .event d.event ↔
        s.st = (d.state d.lastCode).code ∧ p = 0b00 := by
      rw [encNext_ret, Returned.event.injEq, fullCell_event_iff, hq, FullState.code_inj]
    exact ⟨hevent .cw, hevent .ccw⟩
  · obtain ⟨q, hq, rfl⟩ := exec_half_inv hm h
    simp only [encNext_ret, Returned.event.injEq, hq, HalfState.code_inj]
    exact halfCell_event_iff q p

end Sys2Proof.Machine
end

section
/-! PROOF. Every step keeps the build, and a legal state steps whatever is delivered (R7, R80, R90, R150, R185). -/

namespace Sys2Proof.Machine

/-- Settles O40. -/
theorem buildNeverChanges : Obligations.BuildNeverChanges := by
  unfold Obligations.BuildNeverChanges
  intro s t hstep
  obtain ⟨-, rfl⟩ | ⟨w, rest, i, -, -, hi⟩ | ⟨rest, -, rfl⟩ | ⟨p, l, n, rest, -, rfl⟩ | ⟨c, rest, -, -, rfl⟩ |
    ⟨c, rest, -, -, hc⟩ := step_cases hstep
  · exact idle_build s
  · exact (exec_keeps hi).1
  · exact resetOp_build _
  · exact arbitrate_build p l n _
  · exact resetOp_build _
  · refine takeNotices_keeps_of_mem (s := beginCycle (popDelivery rest s)) (P := fun a => a.build = s.build)
      (fun n _ a b ha hab => ?_) rfl hc
    obtain ⟨-, -, hbuild⟩ := takeNotice_keeps hab
    exact hbuild.trans ha

/-- A notification from a legal state is taken, and leaves a legal state. -/
theorem takeNotice_leaves_legal {s : State} (hl : s.Legal) (n : Notice) :
    ∃ t, takeNotice n s = .next t ∧ t.Legal := by
  cases n with
  | enc p =>
    obtain ⟨t, ht, htl, -⟩ := takeEnc_legal hl p
    exact ⟨t, ht, htl⟩
  | btn l => exact ⟨takeBtn l s, rfl, by simpa [State.Legal] using hl⟩

/-- Notifications taken one after the other from a legal state complete in a legal state. -/
theorem takeNotices_legal {s : State} (hl : s.Legal) (ns : List Notice) :
    ∃ t, takeNotices ns s = .next t ∧ t.Legal := by
  induction ns generalizing s with
  | nil => exact ⟨s, rfl, hl⟩
  | cons n ns ih =>
    obtain ⟨m, hm, hml⟩ := takeNotice_leaves_legal hl n
    obtain ⟨t, ht, htl⟩ := ih hml
    exact ⟨t, takeNotices_cons_eq_next.2 ⟨m, hm, ht⟩, htl⟩

/-- Every delivery but a RESERVED word is handled in a legal state, and leaves one. -/
theorem deliver_legal {s : State} {d : Delivery} (hl : s.Legal) (hd : d.notReserved = true) :
    ∃ t, deliver d s = .next t ∧ t.Legal := by
  cases d with
  | word w =>
    obtain ⟨i, rfl⟩ := eq_encode_of_notReserved hd
    obtain ⟨t, ht⟩ := exec_legal hl i
    obtain ⟨-, -, -, -, htl⟩ := exec_keeps ht
    exact ⟨t, by simp only [deliver, runWord, decode_encode, ht], htl hl⟩
  | reset => exact ⟨_, rfl, (resetOp_inv s).legal⟩
  | window p l n => exact ⟨_, rfl, hl⟩
  | cycle c =>
    cases hr : c.rst with
    | false =>
      obtain ⟨t, ht, htl⟩ := takeNotices_legal (s := beginCycle s) hl (cycleNotices c s)
      exact ⟨t, by simpa [deliver, portCycle, hr] using ht, htl⟩
    | true => exact ⟨_, by simp [deliver, portCycle, hr], (resetOp_inv s).legal⟩

/-- Settles O41. -/
theorem legalStateAlwaysSteps : Obligations.LegalStateAlwaysSteps := by
  unfold Obligations.LegalStateAlwaysSteps
  intro s hl hd
  cases hp : s.pending with
  | nil => exact ⟨idle s, by simp only [step, hp], hl⟩
  | cons d rest =>
    obtain ⟨t, ht, htl⟩ := deliver_legal (s := popDelivery rest s) hl (hd d (by simp [hp]))
    exact ⟨t, by simp only [step, hp, ht], htl⟩

end Sys2Proof.Machine
end

section
/-! PROOF. Runs of samples: bounces and completions in full-step mode (R82, R96), and the legs of half-step mode
(R99, R100). -/

namespace Sys2Proof.Machine

/-- The ENC_EDGEs of some samples complete, return these values, and end in this state. -/
def SamplesTo (ps : List PinSample) (s : State) (rs : List Returned) (t : State) : Prop :=
  returns (samples ps) s = rs ∧ execAll (samples ps) s = .next t

/-- No samples leave the state as it is. -/
theorem SamplesTo.nil (s : State) : SamplesTo [] s [] s := ⟨rfl, rfl⟩

/-- A sample before a run returns first. -/
theorem SamplesTo.cons {p : PinSample} {ps : List PinSample} {s m t : State} {rs : List Returned}
    (h : exec (.enc p) s = .next m) (hrun : SamplesTo ps m rs t) : SamplesTo (p :: ps) s (m.ret :: rs) t := by
  obtain ⟨hret, hall⟩ := hrun
  refine ⟨?_, (execAll_next h).trans hall⟩
  rw [← hret]
  exact congrArg (List.map State.ret) (trail_next h)

/-- A run goes on from where another ended. -/
theorem SamplesTo.append {ps ps' : List PinSample} {s m t : State} {rs rs' : List Returned}
    (h : SamplesTo ps s rs m) (h' : SamplesTo ps' m rs' t) : SamplesTo (ps ++ ps') s (rs ++ rs') t := by
  induction ps generalizing s rs with
  | nil =>
    obtain ⟨rfl, hall⟩ := h
    obtain rfl := Host.Outcome.next.inj hall
    exact h'
  | cons p ps ih =>
    obtain ⟨rfl, hall⟩ := h
    obtain ⟨n, hn, hrest⟩ := execAll_inv hall
    have hret : returns (samples (p :: ps)) s = n.ret :: returns (samples ps) n :=
      congrArg (List.map State.ret) (trail_next hn)
    rw [hret]
    exact .cons hn (ih ⟨rfl, hrest⟩)

/-! ### Full-step mode: the codes ahead of a code -/

/-- The codes of a direction's cycle after a code, to the rest code. -/
def Dir.ahead (d : Dir) (c : PinSample) : List PinSample :=
  if c = 0b00 then d.cycle else (d.cycle.dropWhile (· != c)).tail

/-- From the rest code the whole cycle is ahead. -/
theorem Dir.ahead_rest (d : Dir) : d.ahead 0b00 = d.cycle := rfl

/-- Ahead of a code is the next one and, unless that is the rest code, what is ahead of it. -/
theorem Dir.ahead_eq (d : Dir) (c : PinSample) :
    d.ahead c = d.succ c :: if d.succ c = 0b00 then [] else d.ahead (d.succ c) := by
  cases d <;> revert c <;> decide

/-- What follows a code in a direction's cycle is decided by its first code. -/
theorem Dir.eq_ahead_of_suffix {d : Dir} {c : PinSample} {rest : List PinSample} (h : rest <:+ d.cycle)
    (hhead : rest.head? = some (d.succ c)) : rest = d.ahead c := by
  have key : ∀ d : Dir, ∀ l ∈ d.cycle.tails, ∀ c, l.head? = some (d.succ c) → l = d.ahead c := by
    intro d; cases d <;> decide
  exact key d rest ((List.mem_tails rest d.cycle).2 h) c hhead

/-- From the state of a direction at a code, the codes ahead return the event once, at their end, in START. -/
theorem ahead_completes {s : State} {d : Dir} {c : PinSample} (hm : s.build.mode = .full)
    (hs : s.st = (d.state c).code) :
    ∃ u, SamplesTo (d.ahead c) s (List.replicate ((d.ahead c).length - 1) (.event .none) ++ [.event d.event]) u ∧
      u.st = FullState.start.code ∧ u.pos = posAfter s.build.posWidth d.event s.pos := by
  induction h : d.ahead c generalizing c s with
  | nil =>
    rw [Dir.ahead_eq] at h
    cases h
  | cons p rest ih =>
    rw [Dir.ahead_eq, List.cons.injEq] at h
    obtain ⟨rfl, h⟩ := h
    have hexec := exec_full_cell hm hs (fullCell_forward d c)
    split at h
    · subst h
      rename_i hrest
      simp only [hrest, if_true, Dir.state_rest] at hexec ⊢
      exact ⟨_, .cons hexec (.nil _), rfl, rfl⟩
    · rename_i hrest
      rw [if_neg hrest] at hexec
      obtain ⟨u, hu, hst, hpos⟩ := ih (s := encNext s (d.state (d.succ c)).code .none) hm rfl h
      rw [Dir.ahead_eq] at h
      subst h
      exact ⟨u, .cons hexec hu, hst, hpos⟩

/-- Of two adjacent codes but the last and the rest code, each sample goes to its own state, without an event. -/
theorem fullCell_bounce {d : Dir} {c x p : PinSample} (hc : d.succ c ≠ 0b00) (hx : x = c ∨ x = d.succ c)
    (hp : p = c ∨ p = d.succ c) : fullCell (d.state x) p = (d.state p, .none) := by
  obtain rfl | rfl := hx <;> obtain rfl | rfl := hp
  · exact fullCell_state_hold d p
  · rw [fullCell_forward, if_neg hc]
  · exact fullCell_backOff hc
  · exact fullCell_state_hold d _

/-- A bounce of any length returns no event, moves neither position nor records, and ends in the state of one of its
two codes. -/
theorem bounce_run {s : State} {d : Dir} {c x : PinSample} {ps : List PinSample} (hm : s.build.mode = .full)
    (hc : d.succ c ≠ 0b00) (hx : x = c ∨ x = d.succ c) (hs : s.st = (d.state x).code)
    (hps : ∀ p ∈ ps, p = c ∨ p = d.succ c) :
    ∃ t y, SamplesTo ps s (List.replicate ps.length (.event .none)) t ∧ t.pos = s.pos ∧ t.diag = s.diag ∧
      t.build = s.build ∧ (y = c ∨ y = d.succ c) ∧ t.st = (d.state y).code := by
  induction ps generalizing s x with
  | nil => exact ⟨s, x, .nil s, rfl, rfl, rfl, hx, hs⟩
  | cons p ps ih =>
    obtain ⟨hp, hps⟩ := List.forall_mem_cons.1 hps
    have hexec := exec_full_cell hm hs (fullCell_bounce hc hx hp)
    obtain ⟨t, y, hrun, hpos, hdiag, hbuild, hy, hst⟩ := ih (s := encNext s (d.state p).code .none) hm hp rfl hps
    exact ⟨t, y, .cons hexec hrun, hpos, hdiag.trans (encNext_none_diag s _), hbuild, hy, hst⟩

/-- Settles O46, by induction on the bounce; the completion afterwards holds or moves to the second of the two codes,
and what is ahead of it completes. -/
theorem bounceKeepsProgress : Obligations.BounceKeepsProgress := by
  unfold Obligations.BounceKeepsProgress
  intro s d c ps hm hc hs hps
  obtain ⟨x, hx, hs⟩ : ∃ x, (x = c ∨ x = d.succ c) ∧ s.st = (d.state x).code := by
    obtain hs | hs := hs
    · exact ⟨c, .inl rfl, hs⟩
    · exact ⟨d.succ c, .inr rfl, hs⟩
  obtain ⟨t, y, ⟨hret, hall⟩, hpos, hdiag, hbuild, hy, hst⟩ := bounce_run hm hc hx hs hps
  have hends : t.st = (d.state c).code ∨ t.st = (d.state (d.succ c)).code := by
    obtain rfl | rfl := hy
    · exact .inl hst
    · exact .inr hst
  refine ⟨hret, t, hall, hpos, hdiag, hends, ?_⟩
  rintro rest ⟨done, hcycle, hhead⟩
  obtain rfl := Dir.eq_ahead_of_suffix ⟨done, hcycle.symm⟩ hhead
  have hexec := exec_full_cell (hbuild ▸ hm) hst (fullCell_bounce hc hy (.inr rfl))
  obtain ⟨u, hrun, hust, hupos⟩ := ahead_completes (s := encNext t (d.state (d.succ c)).code .none)
    (c := d.succ c) (hbuild ▸ hm) rfl
  obtain ⟨huret, huall⟩ := SamplesTo.cons hexec hrun
  rw [d.ahead_eq c, if_neg hc]
  refine ⟨?_, u, huall, hust, ?_⟩
  · rw [huret, d.ahead_eq (d.succ c)]
    rfl
  · rw [hupos]
    simp [hbuild, hpos]

/-! ### Half-step mode: legs -/

/-- A clean run along a leg returns its event at its end, in the rest state it makes for. -/
theorem leg_completes {s : State} {g : HalfLeg} (hg : g ∈ halfLegs) (hm : s.build.mode = .half)
    (hs : s.st = g.origin.code) :
    ∃ t, SamplesTo [g.dir.succ (halfPins g.origin), halfPins g.target] s [.event .none, .event g.dir.event] t ∧
      t.st = g.target.code ∧ t.pos = posAfter s.build.posWidth g.dir.event s.pos ∧ t.build = s.build := by
  have henter := exec_half_cell hm hs (halfCell_enter hg)
  have hforward := exec_half_cell (s := encNext s g.sub.code .none) hm rfl (halfCell_forward hg)
  exact ⟨_, .cons henter (.cons hforward (.nil _)), rfl, rfl, rfl⟩

/-- A bounce into a leg and straight back returns no event, and ends where it began. -/
theorem leg_bounce {s : State} {g : HalfLeg} (hg : g ∈ halfLegs) (hm : s.build.mode = .half)
    (hs : s.st = g.origin.code) :
    ∃ t, SamplesTo [g.dir.succ (halfPins g.origin), halfPins g.origin] s [.event .none, .event .none] t ∧
      t.st = s.st ∧ t.pos = s.pos := by
  obtain ⟨hsub, hjump⟩ := leg_pins hg
  have henter := exec_half_cell hm hs (halfCell_enter hg)
  have hback := exec_half_cell (s := encNext s g.sub.code .none) hm rfl
    (halfCell_back hg hsub (ne_of_doubleJump hjump).symm)
  exact ⟨_, .cons henter (.cons hback (.nil _)), hs.symm, rfl⟩

/-- A clean cycle is a leg of its direction away from 00 and a leg of its direction back. -/
theorem cycle_eq_legs (d : Dir) : ∃ g₁ ∈ halfLegs, ∃ g₂ ∈ halfLegs,
    g₁.dir = d ∧ g₂.dir = d ∧ g₁.origin = .start ∧ g₁.target = g₂.origin ∧ g₂.target = .start ∧
      d.cycle =
        [d.succ (halfPins g₁.origin), halfPins g₁.target] ++ [d.succ (halfPins g₂.origin), halfPins g₂.target] := by
  cases d <;> decide

/-- Settles O44: in half-step mode the cycle is two legs; in full-step mode it is what is ahead of the rest code. -/
theorem halfStepDoublesResolution : Obligations.HalfStepDoublesResolution := by
  unfold Obligations.HalfStepDoublesResolution
  intro s d hs
  refine ⟨fun hm => ?_, fun hm => ?_⟩
  · obtain ⟨g₁, hg₁, g₂, hg₂, rfl, hdir, hstart, hmid, hend, hcycle⟩ := cycle_eq_legs d
    obtain ⟨m, hrun₁, hst₁, hpos₁, hbuild₁⟩ := leg_completes hg₁ hm (by rw [hs, hstart]; rfl)
    obtain ⟨t, hrun₂, hst₂, hpos₂, -⟩ := leg_completes hg₂ (hbuild₁ ▸ hm) (hmid ▸ hst₁)
    rw [hdir] at hrun₂ hpos₂
    obtain ⟨hret, hall⟩ := hrun₁.append hrun₂
    rw [hcycle]
    exact ⟨hret, t, hall, by rw [hst₂, hend]; rfl, by rw [hpos₂, hpos₁, hbuild₁]⟩
  · obtain ⟨t, ⟨hret, hall⟩, hst, hpos⟩ := ahead_completes (d := d) (c := 0b00) hm (by rw [hs, Dir.state_rest]; rfl)
    rw [Dir.ahead_rest] at hret hall
    refine ⟨?_, t, hall, hst, hpos⟩
    rw [hret]
    cases d <;> rfl

/-- Settles O45: the first sample of either direction enters a leg. -/
theorem halfStepRestBounce : Obligations.HalfStepRestBounce := by
  unfold Obligations.HalfStepRestBounce
  intro s p hm hp
  have hbounce {q : HalfState} (hq : q = .start ∨ q = .startM) (hs : s.st = q.code) :
      returns (samples [p, halfPins q]) s = [.event .none, .event .none] ∧
        ∃ t, execAll (samples [p, halfPins q]) s = .next t ∧ t.st = s.st ∧ t.pos = s.pos := by
    obtain ⟨g, hg, rfl, rfl⟩ := exists_leg hq hp
    obtain ⟨t, ⟨hret, hall⟩, hst, hpos⟩ := leg_bounce hg hm hs
    exact ⟨hret, t, hall, hst, hpos⟩
  exact ⟨hbounce (.inr rfl), hbounce (.inl rfl)⟩

end Sys2Proof.Machine
end

section
/-! PROOF. An event needs the ordered sequence (R95), in full-step mode: runs that stay out of START. -/

namespace Sys2Proof.Machine

/-- A run of samples that completes took its first, and its states are the one after it and those of the rest. -/
theorem samples_cons_inv {p : PinSample} {ps : List PinSample} {s m : State}
    (hrun : execAll (samples (p :: ps)) s = .next m) :
    ∃ t, exec (.enc p) s = .next t ∧ execAll (samples ps) t = .next m ∧
      trail (samples (p :: ps)) s = t :: trail (samples ps) t := by
  obtain ⟨t, ht, hrest⟩ := execAll_inv hrun
  exact ⟨t, ht, hrest, trail_next ht⟩

/-- What an ENC_EDGE of a full-step build leaves in `st` and returns is that of its cell, and the build stays. -/
theorem exec_full_fields {s t : State} {q : FullState} {p : PinSample} (hm : s.build.mode = .full)
    (hs : s.st = q.code) (h : exec (.enc p) s = .next t) :
    t.st = (fullCell q p).1.code ∧ t.ret = .event (fullCell q p).2 ∧ t.build = s.build := by
  obtain rfl := Host.Outcome.next.inj (h.symm.trans (exec_full hm hs p))
  exact ⟨rfl, rfl, rfl⟩

/-- The second sample is no rest code, and equal or adjacent to the first in a direction's cycle. -/
def Dir.Near (d : Dir) (a b : PinSample) : Prop := b ≠ 0b00 ∧ (b = a ∨ b = d.succ a ∨ d.succ b = a)

/-- A sub-state that is not left for START is left for the sub-state of a near code. -/
theorem fullCell_stays {d : Dir} {c p : PinSample} (hc : c ≠ 0b00) (h : (fullCell (d.state c) p).1 ≠ .start) :
    d.Near c p ∧ (fullCell (d.state c) p).1 = d.state p := by
  obtain rfl | rfl | rfl | hjump := d.class_cases c p
  · rw [fullCell_state_hold]
    exact ⟨⟨hc, .inl rfl⟩, rfl⟩
  · rw [fullCell_forward] at h ⊢
    exact ⟨⟨fun h0 => h (Dir.state_eq_start_iff.2 h0), .inr (.inl rfl)⟩, rfl⟩
  · rw [fullCell_backOff hc] at h ⊢
    exact ⟨⟨fun h0 => h (Dir.state_eq_start_iff.2 h0), .inr (.inr rfl)⟩, rfl⟩
  · rw [fullCell_state_doubleJump hjump] at h
    exact absurd rfl h

/-- START is left for the first sub-state of a direction. -/
theorem fullCell_leaves_start {p : PinSample} (h : (fullCell .start p).1 ≠ .start) :
    ∃ d : Dir, p = d.succ 0b00 ∧ (fullCell .start p).1 = d.state p := by
  obtain rfl | rfl | rfl | rfl := sample_cases p
  · exact absurd rfl h
  · exact ⟨.cw, rfl, rfl⟩
  · exact ⟨.ccw, rfl, rfl⟩
  · exact absurd rfl h

/-- A run from a sub-state that is never in START stays in the sub-states of its direction, moves between near codes,
and ends in the sub-state of its last sample. -/
theorem subState_run {s m : State} {d : Dir} {c : PinSample} {ps : List PinSample} (hm : s.build.mode = .full)
    (hc : c ≠ 0b00) (hs : s.st = (d.state c).code) (hrun : execAll (samples ps) s = .next m)
    (haway : ∀ t ∈ trail (samples ps) s, t.st ≠ FullState.start.code) :
    (∀ t ∈ trail (samples ps) s, ∃ x, x ≠ 0b00 ∧ t.st = (d.state x).code) ∧ List.IsChain d.Near (c :: ps) ∧
      m.st = (d.state (ps.getLastD c)).code ∧ m.build = s.build := by
  induction ps generalizing c s with
  | nil =>
    obtain rfl := Host.Outcome.next.inj hrun
    exact ⟨fun t ht => (List.not_mem_nil ht).elim, .singleton c, hs, rfl⟩
  | cons p ps ih =>
    obtain ⟨t, ht, hrest, htrail⟩ := samples_cons_inv hrun
    rw [htrail, List.forall_mem_cons] at haway ⊢
    obtain ⟨hfirst, haway⟩ := haway
    obtain ⟨hst, -, hbuild⟩ := exec_full_fields hm hs ht
    obtain ⟨hnear, hnext⟩ := fullCell_stays hc fun h => hfirst (hst.trans (congrArg FullState.code h))
    rw [hnext] at hst
    obtain ⟨hsubs, hwalk, hlast, hbuild'⟩ := ih (hbuild ▸ hm) hnear.1 hst hrest haway
    exact ⟨⟨⟨p, hnear.1, hst⟩, hsubs⟩, hwalk.cons_cons hnear, by rwa [List.getLastD_cons], hbuild'.trans hbuild⟩

/-- A walk between near codes that ends at the last code, and then the rest code, hold what was ahead in order. -/
theorem ahead_sublist {d : Dir} {c : PinSample} {ps : List PinSample} (hc : c ≠ 0b00)
    (hwalk : List.IsChain d.Near (c :: ps)) (hlast : ps.getLastD c = d.lastCode) :
    (d.ahead c).Sublist (ps ++ [0b00]) := by
  induction ps generalizing c with
  | nil =>
    obtain rfl : c = d.lastCode := hlast
    cases d <;> decide
  | cons b ps ih =>
    obtain ⟨⟨hb, hnear⟩, hwalk⟩ := List.isChain_cons_cons.1 hwalk
    have hrest := ih hb hwalk (by rwa [List.getLastD_cons] at hlast)
    obtain rfl | rfl | rfl := hnear
    · exact hrest.cons b
    · rw [Dir.ahead_eq, if_neg hb]
      exact hrest.cons_cons _
    · rw [d.ahead_eq b, if_neg hc] at hrest
      exact (List.sublist_of_cons_sublist hrest).cons b

/-- An ENC_EDGE that returns a direction's event leaves its last sub-state for START, by the rest code. -/
theorem full_event {s t : State} {d : Dir} {p : PinSample} (hm : s.build.mode = .full)
    (h : exec (.enc p) s = .next t) (hret : t.ret = .event d.event) :
    s.st = (d.state d.lastCode).code ∧ p = 0b00 ∧ t.st = FullState.start.code := by
  obtain ⟨q, hq, rfl⟩ := exec_full_inv hm h
  obtain ⟨rfl, rfl⟩ := fullCell_event_iff.1 (Returned.event.inj hret)
  exact ⟨hq, rfl, by cases d <;> rfl⟩

/-- The full-step clause of R95. -/
theorem full_event_needs_sequence {s m u : State} {d : Dir} {ps : List PinSample} {p : PinSample}
    (hm : s.build.mode = .full) (hs : s.st = FullState.start.code) (hrun : execAll (samples ps) s = .next m)
    (haway : ∀ t ∈ trail (samples ps) s, t.st ≠ FullState.start.code) (hu : exec (.enc p) m = .next u)
    (hret : u.ret = .event d.event) :
    ps.head? = some (d.succ 0b00) ∧ (∀ t ∈ trail (samples ps) s, ∃ c, c ≠ 0b00 ∧ t.st = (d.state c).code) ∧
      List.IsChain d.Near ps ∧ m.st = (d.state d.lastCode).code ∧ p = 0b00 ∧ u.st = FullState.start.code ∧
      d.cycle.Sublist (ps ++ [p]) := by
  cases ps with
  | nil =>
    obtain rfl := Host.Outcome.next.inj hrun
    obtain ⟨-, hevent, -⟩ := exec_full_fields hm hs hu
    rw [hret, fullCell_start_event] at hevent
    exact absurd (Returned.event.inj hevent) d.event_ne_none
  | cons a ps =>
    obtain ⟨t, ht, hrest, htrail⟩ := samples_cons_inv hrun
    rw [htrail, List.forall_mem_cons] at haway ⊢
    obtain ⟨hfirst, haway⟩ := haway
    obtain ⟨hst, -, hbuild⟩ := exec_full_fields hm hs ht
    obtain ⟨e, rfl, hnext⟩ := fullCell_leaves_start fun h => hfirst (hst.trans (congrArg FullState.code h))
    rw [hnext] at hst
    obtain ⟨hsubs, hwalk, hlast, hbuild'⟩ := subState_run (hbuild ▸ hm) e.succ_rest_ne hst hrest haway
    obtain ⟨hmst, rfl, hend⟩ := full_event (hbuild'.trans hbuild ▸ hm) hu hret
    obtain ⟨rfl, hcode⟩ := Dir.state_eq_last_iff.1 (FullState.code_inj.1 (hlast.symm.trans hmst))
    refine ⟨rfl, ⟨⟨_, e.succ_rest_ne, hst⟩, hsubs⟩, hwalk, hmst, rfl, hend, ?_⟩
    rw [← Dir.ahead_rest, Dir.ahead_eq, if_neg e.succ_rest_ne]
    exact (ahead_sublist e.succ_rest_ne hwalk hcode).cons_cons _

end Sys2Proof.Machine
end

section
/-! PROOF. An event needs the ordered sequence (R95), in half-step mode: runs that stay out of the rest states; and the
statement for both modes. -/

namespace Sys2Proof.Machine

/-- What an ENC_EDGE of a half-step build leaves in `st` and returns is that of its cell, and the build stays. -/
theorem exec_half_fields {s t : State} {q : HalfState} {p : PinSample} (hm : s.build.mode = .half)
    (hs : s.st = q.code) (h : exec (.enc p) s = .next t) :
    t.st = (halfCell q p).1.code ∧ t.ret = .event (halfCell q p).2 ∧ t.build = s.build := by
  obtain rfl := Host.Outcome.next.inj (h.symm.trans (exec_half hm hs p))
  exact ⟨rfl, rfl, rfl⟩

/-- A leg that is not left for a rest state is held by its code. -/
theorem halfCell_stays {g : HalfLeg} {p : PinSample} (hg : g ∈ halfLegs) (h : (halfCell g.sub p).1 ≠ .start)
    (hM : (halfCell g.sub p).1 ≠ .startM) : p = halfPins g.sub := by
  obtain ⟨horigin, htarget⟩ := leg_rests hg
  by_contra hhold
  by_cases hahead : p = halfPins g.target
  · rw [hahead, halfCell_forward hg] at h hM
    exact htarget.elim h hM
  · rw [halfCell_back hg hhold hahead] at h hM
    exact horigin.elim h hM

/-- A rest state that is left for no rest state is left by the first code of a direction. -/
theorem halfCell_leaves_rest {q : HalfState} {p : PinSample} (hq : q = .start ∨ q = .startM)
    (h : (halfCell q p).1 ≠ .start) (hM : (halfCell q p).1 ≠ .startM) : p = 0b01 ∨ p = 0b10 := by
  obtain rfl | rfl := hq <;> revert p <;> decide

/-- A leg emits at the code of the rest state it makes for only. -/
theorem halfCell_leg_event {g : HalfLeg} {p : PinSample} {d : Dir} (hg : g ∈ halfLegs)
    (h : (halfCell g.sub p).2 = d.event) : p = halfPins g.target ∧ g.dir = d := by
  by_cases hahead : p = halfPins g.target
  · rw [hahead, halfCell_forward hg] at h
    exact ⟨hahead, Dir.event_inj.1 h⟩
  · by_cases hhold : p = halfPins g.sub
    · rw [hhold, halfCell_hold] at h
      exact absurd h.symm d.event_ne_none
    · rw [halfCell_back hg hhold hahead] at h
      exact absurd h.symm d.event_ne_none

/-- A run from the sub-state of a leg that is never in a rest state holds there. -/
theorem leg_run {s m : State} {g : HalfLeg} {ps : List PinSample} (hg : g ∈ halfLegs) (hm : s.build.mode = .half)
    (hs : s.st = g.sub.code) (hrun : execAll (samples ps) s = .next m)
    (haway : ∀ t ∈ trail (samples ps) s, t.st ≠ HalfState.start.code ∧ t.st ≠ HalfState.startM.code) :
    (∀ x ∈ ps, x = halfPins g.sub) ∧ (∀ t ∈ trail (samples ps) s, t.st = g.sub.code) ∧ m.st = g.sub.code ∧
      m.build = s.build := by
  induction ps generalizing s with
  | nil =>
    obtain rfl := Host.Outcome.next.inj hrun
    exact ⟨fun x hx => (List.not_mem_nil hx).elim, fun t ht => (List.not_mem_nil ht).elim, hs, rfl⟩
  | cons p ps ih =>
    obtain ⟨t, ht, hrest, htrail⟩ := samples_cons_inv hrun
    rw [htrail, List.forall_mem_cons] at haway ⊢
    obtain ⟨⟨hfirst, hfirstM⟩, haway⟩ := haway
    obtain ⟨hst, -, hbuild⟩ := exec_half_fields hm hs ht
    have hp := halfCell_stays hg (fun h => hfirst (hst.trans (congrArg HalfState.code h)))
      fun h => hfirstM (hst.trans (congrArg HalfState.code h))
    rw [hp, halfCell_hold] at hst
    obtain ⟨hps, hsubs, hlast, hbuild'⟩ := ih (hbuild ▸ hm) hst hrest haway
    exact ⟨⟨hp, hps⟩, List.forall_mem_cons.2 ⟨hst, hsubs⟩, hlast, hbuild'.trans hbuild⟩

/-- The half-step clause of R95. -/
theorem half_event_needs_leg {s m u : State} {d : Dir} {q : HalfState} {ps : List PinSample} {p : PinSample}
    (hm : s.build.mode = .half) (hq : q = .start ∨ q = .startM) (hs : s.st = q.code)
    (hrun : execAll (samples ps) s = .next m)
    (haway : ∀ t ∈ trail (samples ps) s, t.st ≠ HalfState.start.code ∧ t.st ≠ HalfState.startM.code)
    (hu : exec (.enc p) m = .next u) (hret : u.ret = .event d.event) :
    ∃ g ∈ halfLegs, g.origin = q ∧ g.dir = d ∧ ps ≠ [] ∧ (∀ x ∈ ps, x = d.succ (halfPins q)) ∧
      (∀ t ∈ trail (samples ps) s, t.st = g.sub.code) ∧ p = halfPins g.target ∧ u.st = g.target.code := by
  cases ps with
  | nil =>
    obtain rfl := Host.Outcome.next.inj hrun
    obtain ⟨-, hevent, -⟩ := exec_half_fields hm hs hu
    rw [hret, halfCell_rest_event hq] at hevent
    exact absurd (Returned.event.inj hevent) d.event_ne_none
  | cons a ps =>
    obtain ⟨t, ht, hrest, htrail⟩ := samples_cons_inv hrun
    rw [htrail, List.forall_mem_cons] at haway ⊢
    obtain ⟨⟨hfirst, hfirstM⟩, haway⟩ := haway
    obtain ⟨hst, -, hbuild⟩ := exec_half_fields hm hs ht
    obtain ⟨g, hg, rfl, rfl⟩ := exists_leg hq (halfCell_leaves_rest hq
      (fun h => hfirst (hst.trans (congrArg HalfState.code h)))
      fun h => hfirstM (hst.trans (congrArg HalfState.code h)))
    rw [halfCell_enter hg] at hst
    obtain ⟨hps, hsubs, hlast, hbuild'⟩ := leg_run hg (hbuild ▸ hm) hst hrest haway
    obtain ⟨hust, hevent, -⟩ := exec_half_fields (hbuild'.trans hbuild ▸ hm) hlast hu
    obtain ⟨rfl, rfl⟩ := halfCell_leg_event hg (Returned.event.inj (hevent.symm.trans hret))
    rw [halfCell_forward hg] at hust
    rw [leg_subPins hg] at hps
    exact ⟨g, hg, rfl, rfl, List.cons_ne_nil _ _, ⟨rfl, hps⟩, List.forall_mem_cons.2 ⟨hst, hsubs⟩, rfl,
      hust⟩

/-- Settles O47, by induction on the run in each mode: it stays in the sub-states of the direction, or of the leg, it
began with, and only the last of these emits. -/
theorem eventNeedsOrderedSequence : Obligations.EventNeedsOrderedSequence := by
  unfold Obligations.EventNeedsOrderedSequence
  exact ⟨fun s m u d ps p => full_event_needs_sequence, fun s m u d q ps p => half_event_needs_leg⟩

end Sys2Proof.Machine
end

section
/-! PROOF. The position tracker (41_position_tracker.md): the single operations. What an ENC_EDGE does to the counter and
the records by the event it returns, the counter at the ends of its range, and BTN_EDGE and READ_POS (R122 to R131). -/

namespace Sys2Proof.Machine

/-! ### The counter at the ends of its range -/

/-- One past the greatest position is the least (R122). -/
theorem wrap_past_greatest {w : Nat} (hw : 0 < w) : wrap w (2 ^ (w - 1) - 1 + 1) = -2 ^ (w - 1) := by
  obtain ⟨n, rfl⟩ : ∃ n, w = n + 1 := ⟨w - 1, by omega⟩
  have hpow : (0 : Int) < 2 ^ n := by positivity
  refine (wrapIsTheUniqueResidue (n + 1) _ _ hw).2 ⟨⟨le_rfl, ?_⟩, ?_⟩
  · simp only [Nat.add_sub_cancel]
    omega
  · refine Int.emod_eq_emod_iff_emod_sub_eq_zero.2 (Int.emod_eq_zero_of_dvd ⟨-1, ?_⟩)
    simp only [Nat.add_sub_cancel, pow_succ]
    ring

/-- One before the least position is the greatest (R122). -/
theorem wrap_before_least {w : Nat} (hw : 0 < w) : wrap w (-2 ^ (w - 1) - 1) = 2 ^ (w - 1) - 1 := by
  rw [← wrap_past_greatest hw, wrap_wrap_sub, Int.add_sub_cancel]
  have hpow : (0 : Int) < 2 ^ (w - 1) := by positivity
  exact wrap_eq_self hw ⟨by omega, by omega⟩

/-! ### ENC_EDGE by the event it returns -/

/-- An ENC_EDGE returns an event, moves the counter by it and makes its record, of the position after the move. -/
theorem exec_enc_event {s t : State} {p : PinSample} (h : exec (.enc p) s = .next t) :
    ∃ ev, t.ret = .event ev ∧ t.pos = posAfter s.posWidth ev s.pos ∧
      t.diag = s.diag ++ stepRecords s.build.observability ev t.pos := by
  obtain ⟨-, c, ev, -, -, rfl⟩ := execEnc_cases h
  exact ⟨ev, rfl, rfl, rfl⟩

/-- An ENC_EDGE moves the counter by the event it is known to have returned. -/
theorem exec_enc_pos {s t : State} {p : PinSample} {ev : StepEvent} (h : exec (.enc p) s = .next t)
    (hret : t.ret = .event ev) : t.pos = posAfter s.posWidth ev s.pos := by
  obtain ⟨ev', hret', hpos, -⟩ := exec_enc_event h
  obtain rfl := Returned.event.inj (hret.symm.trans hret')
  exact hpos

/-- Settles O28: the wrapped sum at the ends of the range, with 32 bits among the widths. -/
theorem positionWraps : Obligations.PositionWraps := by
  unfold Obligations.PositionWraps
  intro s t p h
  have hw : 0 < s.posWidth := s.build.posWidth.pos
  refine ⟨fun hret => ?_, fun hret => ?_, exec_enc_pos h⟩
  · have hpos : t.pos = wrap s.posWidth (s.pos + 1) := exec_enc_pos h hret
    have hend (hmax : s.pos = 2 ^ (s.posWidth - 1) - 1) : t.pos = -2 ^ (s.posWidth - 1) := by
      rw [hpos, hmax, wrap_past_greatest hw]
    refine ⟨hpos, by rw [hpos, posBits_wrap, posBits_add_one], hend, fun h32 hmax => ?_⟩
    have hmin : t.pos = -2147483648 := by
      rw [h32] at hend
      exact hend hmax
    exact ⟨hmin, hmax ▸ rfl, hmin ▸ rfl⟩
  · have hpos : t.pos = wrap s.posWidth (s.pos - 1) := exec_enc_pos h hret
    have hend (hmin : s.pos = -2 ^ (s.posWidth - 1)) : t.pos = 2 ^ (s.posWidth - 1) - 1 := by
      rw [hpos, hmin, wrap_before_least hw]
    refine ⟨hpos, by rw [hpos, posBits_wrap, posBits_sub_one], hend, fun h32 hmin => ?_⟩
    have hmax : t.pos = 2147483647 := by
      rw [h32] at hend
      exact hend hmin
    exact ⟨hmax, hmin ▸ rfl, hmax ▸ rfl⟩

/-! ### BTN_EDGE and READ_POS -/

/-- Settles O30. -/
theorem btnEdgeRuns : Obligations.BtnEdgeRuns := by
  unfold Obligations.BtnEdgeRuns
  intro s
  refine ⟨?_, rfl⟩
  rw [execBtn_eq]
  cases ho : s.build.observability <;> simp [takeBtn, pressed, resetPos, emit, beginCycle, ho]

/-- Settles O31. -/
theorem readPosRuns : Obligations.ReadPosRuns := by
  unfold Obligations.ReadPosRuns
  exact fun s => ⟨execRead_eq s, rfl⟩

/-- A press zeroes the counter, makes its record, and keeps `st` and the build. -/
theorem exec_press (s : State) :
    ∃ t, exec (.btn 0) s = .next t ∧ t.pos = 0 ∧ t.st = s.st ∧ t.build = s.build ∧
      t.diag = s.diag ++ (if s.build.observability = true then [.reset] else []) :=
  ⟨_, (btnEdgeRuns s).1, rfl, rfl, rfl, rfl⟩

/-- Settles O32: after a press ENC_EDGE reads the same cell, and moves the counter by the same event from 0. -/
theorem btnEdgeIgnoresDecoderState : Obligations.BtnEdgeIgnoresDecoderState := by
  unfold Obligations.BtnEdgeIgnoresDecoderState
  refine ⟨fun s l c => exec_hides_st (fun p => Instr.noConfusion) s c, fun s t p ev h hret => ?_⟩
  obtain ⟨-, c, ev', -, hcell, rfl⟩ := execEnc_cases h
  obtain rfl : ev' = ev := Returned.event.inj hret
  obtain ⟨a, ha, hpos, hst, hbuild, -⟩ := exec_press s
  refine ⟨encNext a c ev', ?_, rfl, rfl, ?_⟩
  · rw [execAll_next ha, execAll_next (execEnc_eq (process_congr hst hbuild hcell))]
    rfl
  · rw [encNext_pos, hpos, hbuild]

/-- From a zeroed counter BTN_EDGE and READ_POS complete, leave the counter at 0, and keep `st` and the build. -/
theorem execAll_keeps_zero {is : List Instr} (his : ∀ i ∈ is, ∀ p, i ≠ .enc p) {s : State} (hs : s.pos = 0) :
    ∃ t, execAll is s = .next t ∧ t.pos = 0 ∧ t.st = s.st ∧ t.build = s.build := by
  induction is generalizing s with
  | nil => exact ⟨s, rfl, hs, rfl, rfl⟩
  | cons i is ih =>
    obtain ⟨hi, his⟩ := List.forall_mem_cons.1 his
    obtain ⟨m, hm, hst, -⟩ := exec_hides_st hi s s.st
    obtain ⟨hbuild, -⟩ := exec_keeps hm
    have hpos : m.pos = 0 := by
      cases i with
      | enc p => exact absurd rfl (hi p)
      | btn l =>
        obtain rfl := Host.Outcome.next.inj hm
        simp [hs]
      | read => exact Host.Outcome.next.inj hm ▸ hs
    obtain ⟨t, ht, htpos, htst, htbuild⟩ := ih his hpos
    exact ⟨t, (execAll_next hm).trans ht, htpos, htst.trans hst, htbuild.trans hbuild⟩

/-- Settles O33. -/
theorem secondPressIsNoOp : Obligations.SecondPressIsNoOp := by
  unfold Obligations.SecondPressIsNoOp
  intro s mid hmid
  obtain ⟨a, ha, hapos, hast, habuild, hadiag⟩ := exec_press s
  obtain ⟨b, hb, hbpos, hbst, hbbuild⟩ := execAll_keeps_zero hmid hapos
  obtain ⟨t, ht, htpos, htst, -, htdiag⟩ := exec_press b
  refine ⟨a, b, t, ha, hb, ht, hapos, hbpos, htpos, htst.trans (hbst.trans hast), fun ho => ?_⟩
  rw [hadiag, htdiag, hbbuild, habuild, if_pos ho]
  exact ⟨rfl, rfl⟩

/-! ### The counter and the records over all operations -/

/-- Settles O35. -/
theorem counterInvariant : Obligations.CounterInvariant := by
  unfold Obligations.CounterInvariant
  refine ⟨fun s t p h => ⟨exec_enc_pos h, exec_enc_pos h, exec_enc_pos h⟩, fun s t h => ?_, fun s t h => ?_,
    fun s t h => ?_, fun s t h => ?_⟩ <;> obtain rfl := Host.Outcome.next.inj h
  · simp [pressed]
  · rfl
  · simp [pressed]
  · rfl

/-- Settles O36. -/
theorem diagnosticRecords : Obligations.DiagnosticRecords := by
  unfold Obligations.DiagnosticRecords
  refine ⟨fun i s t h => ?_, fun s t h => Host.Outcome.next.inj h ▸ rfl⟩
  cases i with
  | enc p =>
    obtain ⟨ev, hret, -, hdiag⟩ := exec_enc_event h
    rw [hdiag, hret]
    cases s.build.observability <;> cases ev <;> rfl
  | btn l =>
    obtain rfl := Host.Outcome.next.inj h
    obtain rfl | rfl := level_cases l <;> cases ho : s.build.observability <;> simp [pressed, ho]
  | read =>
    obtain rfl := Host.Outcome.next.inj h
    simp

end Sys2Proof.Machine
end

section
/-! PROOF. Clean cycles with presses anywhere among them (R128): the samples alone move `st` along the direction's cycle,
and the counter counts the events after the last press. -/

namespace Sys2Proof.Machine

/-! ### Runs of operations, and the same by steps over their words -/

/-- A run goes on from where another ended. -/
theorem execAll_append {is js : List Instr} {s m : State} (h : execAll is s = .next m) :
    execAll (is ++ js) s = execAll js m := by
  induction is generalizing s with
  | nil => rw [Host.Outcome.next.inj h, List.nil_append]
  | cons i is ih =>
    obtain ⟨t, ht, hrest⟩ := execAll_inv h
    rw [List.cons_append, execAll_next ht, ih hrest]

/-- A run that ends with a press leaves the counter at 0. -/
theorem execAll_last_press {is : List Instr} {s m : State} (h : execAll is s = .next m)
    (hlast : is.getLast? = some (.btn 0)) : m.pos = 0 := by
  induction is generalizing s with
  | nil => cases hlast
  | cons i is ih =>
    obtain ⟨t, ht, hrest⟩ := execAll_inv h
    cases is with
    | nil =>
      obtain rfl : i = .btn 0 := Option.some.inj hlast
      obtain ⟨t', ht', hpos, -⟩ := exec_press s
      obtain rfl := Host.Outcome.next.inj (ht'.symm.trans ht)
      exact Host.Outcome.next.inj hrest ▸ hpos
    | cons j js => exact ih hrest (by rwa [List.getLast?_cons_cons] at hlast)

/-- Steps over the words of some operations do to the machine what the operations do to a state that agrees. -/
theorem run_words {is : List Instr} {s u v : State} (h : Agrees 0 s u) (hp : s.pending = deliveriesOf is)
    (hv : execAll is u = .next v) : ∃ t, Host.Core.run Sys2Proof.core is.length s = .next t ∧ Agrees 0 t v := by
  induction is generalizing s u with
  | nil => exact ⟨s, rfl, Host.Outcome.next.inj hv ▸ h⟩
  | cons i is ih =>
    obtain ⟨m, hm, hrest⟩ := execAll_inv hv
    obtain ⟨n, hn, hag, -, hpending⟩ := step_word_agrees h hp hm
    obtain ⟨t, ht, htag⟩ := ih hag hpending hrest
    exact ⟨t, (core_run_next hn).trans ht, htag⟩

/-! ### Samples along a direction's cycle -/

/-- The second sample is the next code after the first in a direction's cycle. -/
def Dir.Follows (d : Dir) (a b : PinSample) : Prop := b = d.succ a

/-- Clean cycles from the rest code follow the direction's cycle. -/
theorem isChain_cycles (d : Dir) (n : Nat) :
    List.IsChain d.Follows (0b00 :: (List.replicate n d.cycle).flatten) := by
  induction n with
  | zero => exact .singleton _
  | succ n ih =>
    cases d <;> exact .cons_cons rfl (.cons_cons rfl (.cons_cons rfl (.cons_cons rfl ih)))

/-- Each clean cycle has the rest code once. -/
theorem count_rest_cycles (d : Dir) (n : Nat) : ((List.replicate n d.cycle).flatten).count 0b00 = n := by
  have hone : d.cycle.count 0b00 = 1 := by cases d <;> decide
  rw [List.count_flatten, List.map_replicate, hone, List.sum_replicate, smul_eq_mul, Nat.mul_one]

/-- The words of clean CW cycles are those of their samples (R72). -/
theorem samples_cycles (n : Nat) :
    samples (List.replicate n Dir.cw.cycle).flatten = (List.replicate n Pseudo.cw.expand).flatten := by
  simp only [samples, List.map_flatten, List.map_replicate]
  rfl

/-- Presses aside, the operations with the rest code are as many as the rest codes among the samples. -/
theorem count_rest_of_filter {is : List Instr} {ps : List PinSample}
    (his : is.filter (fun i => i != .btn 0) = samples ps) : is.count (.enc 0b00) = ps.count 0b00 := by
  calc is.count (.enc 0b00) = (is.filter (fun i => i != .btn 0)).count (.enc 0b00) := (List.count_filter rfl).symm
    _ = ps.count 0b00 := by
      rw [his]
      exact List.count_map_of_injective ps Instr.enc (fun _ _ => Instr.enc.inj) 0b00

/-- ENC_EDGE with the next code of a direction's cycle goes to that code's state, with the event at the rest code. -/
theorem exec_follows {s : State} {d : Dir} {c p : PinSample} (hm : s.build.mode = .full)
    (hs : s.st = (d.state c).code) (hp : d.Follows c p) :
    exec (.enc p) s = .next (encNext s (d.state p).code (if p = 0b00 then d.event else .none)) := by
  obtain rfl := hp
  exact exec_full_cell hm hs (fullCell_forward d c)

/-- A run whose operations other than presses are samples along a direction's cycle completes in the state of the last
of them, and what follows them in the cycle follows from there. -/
theorem pressed_walk {d : Dir} {c : PinSample} {is : List Instr} {ps qs : List PinSample} {s : State}
    (hm : s.build.mode = .full) (hs : s.st = (d.state c).code) (hwalk : List.IsChain d.Follows (c :: (ps ++ qs)))
    (his : is.filter (fun i => i != .btn 0) = samples ps) :
    ∃ t e, execAll is s = .next t ∧ t.build = s.build ∧ t.st = (d.state e).code ∧
      List.IsChain d.Follows (e :: qs) := by
  induction is generalizing s c ps with
  | nil =>
    obtain rfl : ps = [] := List.map_eq_nil_iff.1 his.symm
    exact ⟨s, c, rfl, rfl, hs, hwalk⟩
  | cons i is ih =>
    by_cases hi : i = .btn 0
    · subst hi
      obtain ⟨m, hexec, -, hst, hbuild, -⟩ := exec_press s
      obtain ⟨t, e, ht, htbuild, hend⟩ := ih (hbuild ▸ hm) (hst.trans hs) hwalk his
      exact ⟨t, e, (execAll_next hexec).trans ht, htbuild.trans hbuild, hend⟩
    · rw [List.filter_cons_of_pos (by simpa using hi)] at his
      obtain ⟨p, ps, rfl, rfl, hrest⟩ := List.map_eq_cons_iff.1 his.symm
      obtain ⟨hp, hwalk⟩ := List.isChain_cons_cons.1 hwalk
      have hexec := exec_follows hm hs hp
      obtain ⟨t, e, ht, hend⟩ := ih (s := encNext s _ _) hm rfl hwalk hrest.symm
      exact ⟨t, e, (execAll_next hexec).trans ht, hend⟩

/-- Samples along the CW cycle return one CW event for each rest code among them, and the counter counts these. -/
theorem cw_walk_counts {c : PinSample} {ps : List PinSample} {s : State} {k : Int} (hm : s.build.mode = .full)
    (hs : s.st = (Dir.cw.state c).code) (hpos : s.pos = wrap s.build.posWidth k)
    (hwalk : List.IsChain Dir.cw.Follows (c :: ps)) :
    ∃ t rs, SamplesTo ps s rs t ∧ rs.count (.event .cw) = ps.count 0b00 ∧
      t.pos = wrap s.build.posWidth (k + ps.count 0b00) := by
  induction ps generalizing s c k with
  | nil => exact ⟨s, [], .nil s, rfl, by simpa using hpos⟩
  | cons p ps ih =>
    obtain ⟨hp, hwalk⟩ := List.isChain_cons_cons.1 hwalk
    have hexec := exec_follows hm hs hp
    by_cases hrest : p = 0b00
    · rw [if_pos hrest] at hexec
      have hmove : (encNext s (Dir.cw.state p).code .cw).pos = wrap s.build.posWidth (k + 1) := by
        rw [encNext_pos, hpos]
        exact wrap_wrap_add _ k 1
      obtain ⟨t, rs, hrun, hcount, htpos⟩ := ih (s := encNext s _ _) hm rfl hmove hwalk
      refine ⟨t, _, .cons hexec hrun, ?_, ?_⟩
      · rw [hrest, List.count_cons_self, ← hcount]
        exact List.count_cons_self
      · rw [htpos, hrest, List.count_cons_self, Nat.cast_succ, Int.add_right_comm, Int.add_assoc]
        rfl
    · rw [if_neg hrest] at hexec
      obtain ⟨t, rs, hrun, hcount, htpos⟩ := ih (s := encNext s (Dir.cw.state p).code .none) hm rfl hpos hwalk
      rw [List.count_cons_of_ne hrest]
      exact ⟨t, _, .cons hexec hrun, (List.count_cons_of_ne (by simp)).trans hcount, htpos⟩

/-- Settles O48: the presses aside, the trace is samples along the CW cycle; those before the last press bring `st` to the
state of their last code, and from the counter at 0 those after it are counted. -/
theorem resetCountsLaterCycles : Obligations.ResetCountsLaterCycles := by
  unfold Obligations.ResetCountsLaterCycles
  intro b n before after hm htrace hbefore hafter
  rw [List.filter_append, ← samples_cycles] at htrace
  obtain ⟨ps, qs, hsplit, hps, hqs⟩ := List.map_eq_append_iff.1 htrace.symm
  have hquiet : after.filter (fun i => i != .btn 0) = after :=
    List.filter_eq_self.2 fun i hi => bne_iff_ne.2 fun h => hafter (h ▸ hi)
  obtain rfl : samples qs = after := hqs.trans hquiet
  obtain ⟨m, e, hmrun, hmbuild, hmst, hwalk⟩ :=
    pressed_walk (s := State.resetFor b) (d := .cw) (c := 0b00) hm rfl (hsplit ▸ isChain_cycles .cw n) hps.symm
  have hmpos : m.pos = wrap m.build.posWidth 0 := by
    rw [wrap_zero]
    obtain rfl | hlast := hbefore
    · exact Host.Outcome.next.inj hmrun ▸ rfl
    · exact execAll_last_press hmrun hlast
  obtain ⟨v, rs, ⟨hret, hvrun⟩, hrs, hvpos⟩ := cw_walk_counts (hmbuild ▸ hm) hmst hmpos hwalk
  obtain ⟨t, htrun, hagree⟩ := run_words (s := { State.resetFor b with pending := deliveriesOf (before ++ samples qs) })
    (u := State.resetFor b) ⟨rfl, rfl, rfl, rfl, rfl⟩ rfl ((execAll_append hmrun).trans hvrun)
  refine ⟨m, t, hmrun, htrun, ?_, ?_⟩
  · rw [hagree.pos, hvpos, hret, hrs, hmbuild, Int.zero_add]
    rfl
  · rw [hret, hrs, count_rest_of_filter hps.symm, Nat.add_comm, ← List.count_append, ← hsplit, count_rest_cycles]

end Sys2Proof.Machine
end

section
/-! PROOF. RESET (R170 to R173): its step in either form, the first ENC_EDGE after it, and ENC_EDGE from a code outside
the mode. -/

namespace Sys2Proof.Machine

/-- A step over a RESET, the operation or a cycle with `rst = 1`, is RESET with the delivery off the queue. -/
theorem step_of_holdsReset {s : State} {d : Delivery} {rest : List Delivery} (hd : d.holdsReset = true)
    (hp : s.pending = d :: rest) : step s = .next (resetOp (popDelivery rest s)) := by
  cases d with
  | word w => cases hd
  | reset => simp only [step, hp, deliver]
  | window p l n => cases hd
  | cycle c =>
    have hr : c.rst = true := hd
    simp only [step, hp, deliver, portCycle, hr, if_true]

/-- Settles O10. -/
theorem resetOperationRuns : Obligations.ResetOperationRuns := by
  unfold Obligations.ResetOperationRuns
  exact fun s rest hp => ⟨_, step_of_holdsReset rfl hp, rfl, rfl, rfl, rfl, rfl, rfl, rfl, rfl, rfl⟩

/-- Settles O11: both deliveries are a RESET, and RESET does not look at what was delivered. -/
theorem resetCycleDiscardsNotifications : Obligations.ResetCycleDiscardsNotifications := by
  unfold Obligations.ResetCycleDiscardsNotifications
  exact fun s c rest hr hp => ⟨_, step_of_holdsReset (d := .cycle c) hr hp,
    step_of_holdsReset (d := .reset) rfl rfl, rfl, rfl, rfl, rfl, rfl, rfl, rfl⟩

/-- From START of a full-step build no sample returns an event, and the adjacent codes begin a sequence (R83). -/
theorem exec_full_from_start {s : State} (hm : s.build.mode = .full) (hs : s.st = FullState.start.code)
    (p : PinSample) :
    ∃ t, exec (.enc p) s = .next t ∧ t.ret = .event .none ∧
      (p = 0b00 ∨ p = 0b11 → t.st = FullState.start.code) ∧
      (p = 0b01 → t.st = FullState.cwBegin.code) ∧ (p = 0b10 → t.st = FullState.ccwBegin.code) := by
  refine ⟨_, exec_full hm hs p, by rw [encNext_ret, fullCell_start_event], ?_, ?_, ?_⟩
  · rintro (rfl | rfl) <;> rfl
  · rintro rfl; rfl
  · rintro rfl; rfl

/-- From START of a half-step build no sample returns an event, and each goes to a state of its own (R87). -/
theorem exec_half_from_start {s : State} (hm : s.build.mode = .half) (hs : s.st = HalfState.start.code)
    (p : PinSample) :
    ∃ t, exec (.enc p) s = .next t ∧ t.ret = .event .none ∧
      (p = 0b00 → t.st = HalfState.start.code) ∧ (p = 0b11 → t.st = HalfState.startM.code) ∧
      (p = 0b01 → t.st = HalfState.cwBegin.code) ∧ (p = 0b10 → t.st = HalfState.ccwBegin.code) := by
  refine ⟨_, exec_half hm hs p, by rw [encNext_ret, halfCell_rest_event (.inl rfl)], ?_, ?_, ?_, ?_⟩ <;>
    (rintro rfl; rfl)

/-- The word after a RESET runs its instruction from a state with `st = 0x00`, in the build before the RESET. -/
theorem run_reset_then_word {s : State} {d : Delivery} {i : Instr} {rest : List Delivery} (hd : d.holdsReset = true)
    (hp : s.pending = d :: .word (encode i) :: rest) :
    ∃ r : State, r.st = 0x00 ∧ r.build = s.build ∧
      ∀ t, exec i r = .next t → Host.Core.run Sys2Proof.core 2 s = .next t := by
  refine ⟨popDelivery rest (resetOp (popDelivery (.word (encode i) :: rest) s)), rfl, rfl, fun t ht => ?_⟩
  rw [core_run_next (step_of_holdsReset hd hp), core_run_next ((step_word rfl (decode_encode i)).trans ht)]
  rfl

/-- Settles O12: RESET leaves START's code, and the word after it reads START's row of the table. -/
theorem firstSampleAfterReset : Obligations.FirstSampleAfterReset := by
  unfold Obligations.FirstSampleAfterReset
  intro s d p rest hd hp
  obtain ⟨r, hr, hbuild, hrun⟩ := run_reset_then_word hd hp
  cases hm : s.build.mode with
  | full =>
    obtain ⟨t, ht, hret, hst⟩ := exec_full_from_start (hbuild ▸ hm) hr p
    exact ⟨t, hrun t ht, hret, fun _ => hst, nofun⟩
  | half =>
    obtain ⟨t, ht, hret, hst⟩ := exec_half_from_start (hbuild ▸ hm) hr p
    exact ⟨t, hrun t ht, hret, nofun, fun _ => hst⟩

/-- An ENC_EDGE from an `st` outside its mode's codes is refused under the code (R172). -/
theorem takeEnc_illegal {s : State} (h : ¬ s.Legal) (p : PinSample) :
    takeEnc p s = .refused (.illegalStateCode s.st) := by
  rw [takeEnc, process_illegal h p]

/-- Settles O19: only ENC_EDGE looks for a row of the table. -/
theorem illegalStateCodeIsRefused : Obligations.IllegalStateCodeIsRefused := by
  unfold Obligations.IllegalStateCodeIsRefused
  exact fun s hs => ⟨takeEnc_illegal (s := beginCycle s) hs, fun l => ⟨_, execBtn_eq l s⟩, _, execRead_eq s⟩

end Sys2Proof.Machine
end

section
/-! PROOF. A step and a press of the same window (R180), and of the same cycle (R183, R132). -/

namespace Sys2Proof.Machine

/-- A step and a press in either order complete with `st` as the step alone leaves it; the counter ends at 0, or one
event from 0 where the press comes first. -/
theorem exec_step_and_press {o : SimulOrder} {p : PinSample} {x y : Instr} {s e : State} {ev : StepEvent}
    (hpair : pairOrdered o p 0 x y) (he : exec (.enc p) s = .next e) (hret : e.ret = .event ev) :
    ∃ m u, exec x s = .next m ∧ exec y m = .next u ∧ u.st = e.st ∧
      (o ≠ .btnFirst ∧ u.pos = 0 ∨ o ≠ .encFirst ∧ u.pos = posAfter s.posWidth ev 0) := by
  obtain ⟨rfl, rfl, ho⟩ | ⟨rfl, rfl, ho⟩ := hpair
  · obtain ⟨u, hu, hpos, hst, -⟩ := exec_press e
    exact ⟨e, u, he, hu, hst, .inl ⟨ho, hpos⟩⟩
  · obtain ⟨u, hrun, -, hst, hpos⟩ := btnEdgeIgnoresDecoderState.2 s e p ev he hret
    obtain ⟨m, hm, hrest⟩ := execAll_inv hrun
    obtain ⟨u', hu, hend⟩ := execAll_inv hrest
    obtain rfl := Host.Outcome.next.inj hend
    exact ⟨m, u', hm, hu, hst, .inr ⟨ho, hpos⟩⟩

/-- Settles O50: the arbiter's step, then the words of the pair in the order it gave. -/
theorem sameWindowFinalPosition : Obligations.SameWindowFinalPosition := by
  unfold Obligations.SameWindowFinalPosition
  intro s e p ev rest hp he hret
  obtain ⟨a, b, c, x, y, hsum, hpair, hwords⟩ := windowWords_cases p 0 0 (popDelivery rest s)
  obtain ⟨rfl, rfl, rfl⟩ : a = 0 ∧ b = 0 ∧ c = 0 := by omega
  obtain ⟨m, u, hm, hu, hst, hpos⟩ := exec_step_and_press hpair he hret
  obtain ⟨x, y, rfl, rfl⟩ := hpair.notices
  obtain ⟨t, hsteps, hag, hrest⟩ := stepsTo_window (((Agrees.refl s).popDelivery_left rest).arbitrate_left p 0 0)
    (by rw [arbitrate_pending, hwords, popDelivery_pending]) hm hu
  refine ⟨t, (StepsTo.head (step_window hp) hsteps).run, hrest, hag.st.trans hst, ?_⟩
  rw [hag.pos]
  obtain ⟨ho, hzero⟩ | ⟨ho, hone⟩ := hpos
  · exact ⟨.inl hzero, fun _ => hzero, fun hb => absurd hb ho⟩
  · exact ⟨.inr hone, fun hf => absurd hf ho, fun _ => hone⟩

/-- In a state with the `st` and build of another, `process` reads the cell that ENC_EDGE's `st` and event came from. -/
theorem process_of_exec {s e a : State} {p : PinSample} {ev : StepEvent} (he : exec (.enc p) s = .next e)
    (hret : e.ret = .event ev) (hst : a.st = s.st) (hbuild : a.build = s.build) :
    process p a = .ok ({ a with st := e.st }, ev) := by
  obtain ⟨-, c, ev', -, hcell, rfl⟩ := execEnc_cases he
  obtain rfl : ev' = ev := Returned.event.inj hret
  exact process_congr hst hbuild hcell

/-- A cycle with both notifications takes them in the order of `SIMUL_ORDER` (R50). -/
theorem step_cycle_pair {s : State} {c : PortIn} {rest : List Delivery} (hp : s.pending = .cycle c :: rest)
    (hr : c.rst = false) (henc : c.encValid = true) (hbtn : c.btnValid = true) :
    step s = takeNotices (if encComesFirst (popDelivery rest s) then [.enc c.encSample, .btn c.btnLevel]
      else [.btn c.btnLevel, .enc c.encSample]) (beginCycle (popDelivery rest s)) := by
  simp only [step, hp, deliver, portCycle, hr, cycleNotices, henc, hbtn, orderPair]
  cases encComesFirst (popDelivery rest s) <;> rfl

/-- The code shown on `step_event` is the event's (R66). -/
theorem StepEvent.code_eq_shownCode (ev : StepEvent) : ev.code = shownCode ev := by
  cases ev <;> rfl

/-- Level 0 is pressed (R124). -/
theorem pressed_iff {l : Level} : pressed l = true ↔ l = 0 := beq_iff_eq

/-- Settles O54, in the order the arbiter gives: the second notification is taken from what the first leaves. -/
theorem cycleWithBothNotifications : Obligations.CycleWithBothNotifications := by
  unfold Obligations.CycleWithBothNotifications
  intro s e c ev rest hr henc hbtn hp he hret
  have hstep := step_cycle_pair hp hr henc hbtn
  cases hfirst : encComesFirst (popDelivery rest s) with
  | true =>
    have htake := takeEnc_eq (process_of_exec (a := beginCycle (popDelivery rest s)) he hret rfl rfl)
    rw [hfirst] at hstep
    refine ⟨_, true, _, hstep.trans (takeNotices_cons_eq_next.2 ⟨_, htake, rfl⟩), fun _ => rfl,
      fun hb => absurd hb (encComesFirst_of_true (s := popDelivery rest s) hfirst), rfl, ?_⟩
    simp [pressed_iff, ev.code_eq_shownCode]
  | false =>
    have htake := takeEnc_eq (process_of_exec (a := takeBtn c.btnLevel (beginCycle (popDelivery rest s))) he hret
      (takeBtn_st ..) (takeBtn_build ..))
    rw [hfirst] at hstep
    refine ⟨_, false, _, hstep.trans ((takeNotices_enc _ _).trans htake),
      fun hf => absurd hf (encComesFirst_of_false (s := popDelivery rest s) hfirst), fun _ => rfl, rfl, ?_⟩
    simp [pressed_iff, ev.code_eq_shownCode]

end Sys2Proof.Machine
end
